-- ==== Sys2Proof/Word.lean ====
section
/-! DEFINITION. The word types of the engine (00_scope.md R4, R5): nothing but widths. -/

namespace Sys2Proof

/-- A `byte`, the input unit (R4, R5). -/
abbrev Byte := BitVec 8

/-- A `u32`, the hash word width (R4, R5). -/
abbrev Word := BitVec 32

/-- A `u64`, the width of the bit-length counter (R4, R5). -/
abbrev DoubleWord := BitVec 64

end Sys2Proof
end

