-- ==== Sys2Proof/Syntax.lean ====
section
/-! DEFINITION. The commands of the engine: the raw command that the host sends, the instruction it stands for,
what the host and the platform can do to an engine, and the spec's listing lines (30_encoding.md). -/

namespace Sys2Proof

/-- A command as it crosses the interface: the header byte `CMD` and the framed payload (R60).
The length of the payload is the framing's, not a field of `CMD`. -/
structure Command where
  header  : Byte
  payload : List Byte
deriving DecidableEq, Repr

/-- One constructor per row of spec/opcode_table.json. -/
inductive Instr where
  /-- INIT: `CMD = 0x00`, empty payload (R61). -/
  | init
  /-- UPDATE: `CMD = 0x01`, the message bytes in order, any number of them (R62). -/
  | update (data : List Byte)
  /-- FINALIZE: `CMD = 0x02`, empty payload (R63). -/
  | finalize
deriving DecidableEq, Repr

/-- What can happen to an engine from outside. -/
inductive HostEvent where
  /-- The host issues a command (R48, R164). -/
  | command (c : Command)
  /-- The platform asserts reset between two commands (R161). -/
  | reset
  /-- The platform asserts reset while the engine is at work on a command (the last sentence of R160). -/
  | resetDuring (c : Command)
deriving DecidableEq, Repr

/-- A line of a command listing (R68). Text is a list of characters, hex digits are 4-bit values. -/
inductive Line where
  /-- `INIT` -/
  | init
  /-- `UPDATE "text"` -/
  | updateText (text : List Char)
  /-- `UPDATE x"hexbytes"`: pairs of hex digits, the first byte first. -/
  | updateHex (pairs : List (BitVec 4 × BitVec 4))
  /-- `UPDATE "c"*k` -/
  | updateRepeat (c : Char) (k : Nat)
  /-- `FINALIZE` -/
  | finalize
  /-- `.cmd 0xNN`: a raw header byte with an empty payload. -/
  | cmd (header : Byte)
deriving DecidableEq, Repr

/-- The pseudo-command `HASH "text"` (R69). -/
def hashCommand (text : List Byte) : List Instr := [.init, .update text, .finalize]

end Sys2Proof
end

