-- ==== Sys2Proof/WellFormed.lean ====
section
/-! DEFINITION. Which commands have a meaning (30_encoding.md R60, R64): three checks on the raw command.
An `Instr` needs none: its constructors hold exactly what R61 to R63 admit. -/

namespace Sys2Proof

/-- Bits 7:2 of `CMD`, RSV, "must be 0" (R60). -/
def Command.reservedBitsZero (c : Command) : Bool := c.header.extractLsb' 2 6 == 0#6

/-- Bits 1:0 of `CMD`, OP, name an operation: the value 3 is reserved (R60). -/
def Command.opcodeDefined (c : Command) : Bool := c.header.extractLsb' 0 2 != 3#2

/-- "INIT and FINALIZE take an empty payload"; OP = 1, UPDATE, takes any (R60). -/
def Command.payloadAllowed (c : Command) : Bool :=
  c.header.extractLsb' 0 2 == 1#2 || c.payload.isEmpty

/-- The command is one that the engine admits (R64 lists the others). -/
def Command.wf (c : Command) : Bool :=
  c.reservedBitsZero && c.opcodeDefined && c.payloadAllowed

end Sys2Proof
end

