-- ==== Sys2Proof/Decode.lean ====
section
/-! DEFINITION. The decoder, total on any command and rejecting by name, and after it the encoder
(30_encoding.md R60 to R64), the listing lines (R68), and an instruction's bits as the opcode table numbers them. -/

namespace Sys2Proof

/-- Why a command is not admitted (R64). -/
inductive Reject where
  /-- RSV != 0: `CMD` is 0x04 to 0xFF. -/
  | reservedBits
  /-- OP = 3: `CMD` is 0x03. -/
  | reservedOpcode
  /-- INIT with a non-empty payload. -/
  | payloadOnInit
  /-- FINALIZE with a non-empty payload. -/
  | payloadOnFinalize
deriving DecidableEq, Repr

/-- The field RSV, bits 7:2 of `CMD` (R60). -/
def Command.rsv (c : Command) : BitVec 6 := c.header.extractLsb' 2 6

/-- The field OP, bits 1:0 of `CMD` (R60). -/
def Command.op (c : Command) : BitVec 2 := c.header.extractLsb' 0 2

/-- The decoder (R60 to R64). Where a command is reserved on several grounds, the name given is that of the first test
below; R64 refuses it whichever (log 9). -/
def decode (c : Command) : Except Reject Instr :=
  if c.rsv ≠ 0#6 then .error .reservedBits
  else if c.op = 0#2 then
    if c.payload = [] then .ok .init else .error .payloadOnInit
  else if c.op = 1#2 then .ok (.update c.payload)
  else if c.op = 2#2 then
    if c.payload = [] then .ok .finalize else .error .payloadOnFinalize
  else .error .reservedOpcode

/-- `CMD` of an operation: RSV is 0, OP is `op` (R60). -/
def headerOf (op : BitVec 2) : Byte := 0#6 ++ op

/-- The encoder: the command of an instruction (R61, R62, R63). -/
def encode : Instr → Command
  | .init        => ⟨headerOf 0#2, []⟩
  | .update data => ⟨headerOf 1#2, data⟩
  | .finalize    => ⟨headerOf 2#2, []⟩

/-- The ASCII byte of a character (R68). -/
def asciiByte (c : Char) : Byte := BitVec.ofNat 8 c.toNat

/-- The command that a listing line stands for (R68). -/
def Line.command : Line → Command
  | .init             => encode .init
  | .updateText text  => encode (.update (text.map asciiByte))
  | .updateHex pairs  => encode (.update (pairs.map fun p => p.1 ++ p.2))
  | .updateRepeat c k => encode (.update (List.replicate k (asciiByte c)))
  | .finalize         => encode .finalize
  | .cmd header       => ⟨header, []⟩

/-- The command whose bits are `w`, bit 0 the least significant bit of the header byte, and every bit from `nbits` on 0.
The first byte is `CMD`; the whole bytes after it are the payload, in order, as the transport frames it (log 3). -/
def commandOfBits (nbits w : Nat) : Command :=
  let v := w % 2 ^ nbits
  ⟨BitVec.ofNat 8 v, (List.range ((nbits + 7) / 8 - 1)).map fun j => BitVec.ofNat 8 (v >>> (8 * (j + 1)))⟩

/-- The instruction that the decoder reads from the bits of an opcode-table row. -/
def decodeTableWord (nbits w : Nat) : Option Instr :=
  match decode (commandOfBits nbits w) with
  | .ok i    => some i
  | .error _ => none

end Sys2Proof
end

