-- ==== Sys2Proof/Machine/Constants.lean ====
section
/-! DEFINITION. The numbers the spec fixes: the initial values IV (10_state.md R32, 40_init_update.md) and the round
constants (41_compression.md R107). -/

namespace Sys2Proof.Machine

/-- `IV[0]` (R32). -/
def iv0 : Word := 0x67452301#32
/-- `IV[1]` (R32). -/
def iv1 : Word := 0xEFCDAB89#32
/-- `IV[2]` (R32). -/
def iv2 : Word := 0x98BADCFE#32
/-- `IV[3]` (R32). -/
def iv3 : Word := 0x10325476#32
/-- `IV[4]` (R32). -/
def iv4 : Word := 0xC3D2E1F0#32

/-- `K_p`, the constant of pass `p` (R107). Passes are 0 to 3; no round is in another. -/
def passConstant : Nat → Word
  | 0 => 0x5A827999#32
  | 1 => 0x6ED9EBA1#32
  | 2 => 0x8F1BBCDC#32
  | _ => 0xCA62C1D6#32

/-- The marker byte that padding appends (42_finalize.md R121). -/
def padMarker : Byte := 0x80#8

end Sys2Proof.Machine
end

