-- ==== Sys2Proof/Machine/State.lean ====
section
/-! DEFINITION. The state of the engine (10_state.md) and of what stands around it, as plain data; the reasons a step
can stop; the state after reset (70_reset_and_hazards.md R160). -/

namespace Sys2Proof.Machine

/-- The status of the engine (R25). Its 2-bit code is `Status.code`. -/
inductive Status where
  | active
  | finalized
  | corrupted
deriving DecidableEq, Repr

/-- The result codes (30_encoding.md R66). Their numbers are `ResultCode.code`. -/
inductive ResultCode where
  | ok
  /-- Never produced by the engine (60_exceptions.md R141). -/
  | nullInput
  | inputTooLong
  | stateError
deriving DecidableEq, Repr

/-- The response of the engine to one command (R65). -/
structure Response where
  result : ResultCode
  digest : Option (List Byte)
deriving DecidableEq, Repr

/-- The five hash words `h[0..4]`, also called H0 to H4 (R21). -/
structure HashWords where
  h0 : Word
  h1 : Word
  h2 : Word
  h3 : Word
  h4 : Word
deriving DecidableEq, Repr

/-- A byte-addressed store as a list of cells: addresses strictly rising, and no cell equal to what an unlisted address
reads as, which is 0x00 (`Memory.get`; R32 gives 0x00 for every byte at reset). `Memory.wf` says the form holds. -/
abbrev Memory := List Host.Cell

/-- The store in which every byte is 0x00. -/
def Memory.zeros : Memory := []

/-- The engine's own state, the spec's record `(h, block, block_len, bit_len, status, cerr)` (R20). -/
structure DigestState where
  /-- `h[0..4]`, the running hash accumulator (R21). -/
  h        : HashWords
  /-- `block[0..63]`, the current message block (R22, R40). -/
  block    : Memory
  /-- `block_len`, the count of valid bytes in `block` (R23). -/
  blockLen : BitVec 7
  /-- `bit_len`, the number of message bits processed so far (R24). -/
  bitLen   : DoubleWord
  /-- `status` (R25). -/
  status   : Status
  /-- `cerr`, the stored corruption error (R25). -/
  cerr     : ResultCode
deriving DecidableEq, Repr

/-- The engine with the host it serves. -/
structure State where
  /-- The engine's own state (R20). -/
  engine    : DigestState
  /-- The host's and the platform's events still to come, the first one first. They are the environment's, and the
  engine holds none of them: it meets an event only when every earlier command has responded (R50, R164; log 1). -/
  pending   : List HostEvent
  /-- The responses given so far, in order: what the host observes of a run (R167; log 1). -/
  responses : List Response
deriving DecidableEq, Repr

/-- The reasons a step can stop with a fault. -/
inductive Fault where
  /-- Raised by UPDATE and FINALIZE when they would write `block` at an index outside 0..63, an address that does not
  exist (R40, R41). Only a state with `block_len >= 64` between two commands can raise it, and no run reaches one (R26).
  SAFE: the machine stops where the spec says nothing (log 13). -/
  | blockIndexOutOfRange
deriving DecidableEq, Repr

/-- The reasons a step can have no meaning. -/
inductive Refusal where
  /-- An instruction that the model gives no meaning. Raised by no arm: every row of the table is modelled. SAFE. -/
  | notModelled (mnemonic : String)
  /-- Raised by `step` on a command that R64 reserves: "The model refuses such a command: it has no step, it records
  a refusal, and it does not change the engine state or respond". SAFE: the machine stops (log 9). -/
  | reservedCommand (why : Reject)
deriving DecidableEq, Repr

/-- The hash words set to the IVs (R32). -/
def HashWords.initial : HashWords := ⟨iv0, iv1, iv2, iv3, iv4⟩

/-- Every field of the engine after reset (R32, R160). -/
def DigestState.reset : DigestState where
  h        := HashWords.initial
  block    := Memory.zeros
  blockLen := 0#7
  bitLen   := 0#64
  status   := .active
  cerr     := .ok

/-- The machine right after reset: the engine's reset state (R160), no event yet and no response yet. -/
def State.reset : State where
  engine    := DigestState.reset
  pending   := []
  responses := []

end Sys2Proof.Machine
end

