-- ==== Sys2Proof/Machine/Ops.lean ====
section
/-! DEFINITION. The named operations of the engine over its block buffer, its hash words and its responses
(00_scope.md R6, R7, R9; 20_memory.md R40 to R42), with `fail`, the engine's form of taking an exception
(60_exceptions.md R144), and the recovery beside it (R146). -/

namespace Sys2Proof.Machine

/-! ### The block buffer -/

/-- How many bytes the block buffer has: its addresses are 0..63 (R40). -/
def blockSize : Nat := 64

/-- `block[a]` (R9). An unlisted address reads as 0x00. -/
def Memory.get : Memory → Nat → Byte
  | [], _ => 0x00#8
  | (b, v) :: rest, a => if a = b then v else Memory.get rest a

/-- The store without any cell at `a`: reading there gives 0x00. -/
def Memory.clear (m : Memory) (a : Nat) : Memory := m.filter fun c => c.1 ≠ a

/-- The store with the cell `(a, v)` at its place in the order of addresses. -/
def Memory.insert : Memory → Nat → Byte → Memory
  | [], a, v => [(a, v)]
  | (b, w) :: rest, a, v =>
    if a < b then (a, v) :: (b, w) :: rest
    else if a = b then (a, v) :: rest
    else (b, w) :: Memory.insert rest a v

/-- `block[a] <- v` (R9). Writing 0x00 removes the cell, so that equal stores are equal data. -/
def Memory.put (m : Memory) (a : Nat) (v : Byte) : Memory :=
  if v = 0x00#8 then m.clear a else m.insert a v

/-- `block[a] <- bytes[0]`, `block[a+1] <- bytes[1]`, and so on, in that order. -/
def Memory.putBytes : Memory → Nat → List Byte → Memory
  | m, _, [] => m
  | m, a, v :: rest => Memory.putBytes (m.put a v) (a + 1) rest

/-- `for j in a..b-1: block[j] <- 0x00`. -/
def Memory.putZeros (m : Memory) (a b : Nat) : Memory :=
  m.putBytes a (List.replicate (b - a) 0x00#8)

/-- `block[a] <- v` for an index that the engine computes: none where the index is no address of the buffer (R40). -/
def Memory.store (m : Memory) (a : Nat) (v : Byte) : Option Memory :=
  if a < blockSize then some (m.put a v) else none

/-- All 64 bytes of the buffer at once, as the compression function reads them (R42). -/
def Memory.bytes (m : Memory) : List Byte := (List.range blockSize).map m.get

/-- The canonical form: addresses strictly rising and inside the buffer, and no cell that holds 0x00. -/
def Memory.wf (m : Memory) : Bool :=
  decide (m.Pairwise fun c d => c.1 < d.1) && m.all fun c => decide (c.1 < blockSize) && c.2 != 0x00#8

/-! ### The hash words -/

/-- `h[i]` for i in 0..4 (R9, R21). There is no word past `h[4]`, and no rule asks for one. -/
def HashWords.get (h : HashWords) : Nat → Word
  | 0 => h.h0
  | 1 => h.h1
  | 2 => h.h2
  | 3 => h.h3
  | _ => h.h4

/-! ### Words -/

/-- `ROTL(x, n)`, for 0 < n < 32 (R7). -/
def rotl (x : Word) (n : Nat) : Word := (x <<< n) ||| (x >>> (32 - n))

/-! ### Responding, failing, starting anew -/

/-- The same machine with another engine state. -/
def State.withEngine (s : State) (e : DigestState) : State := { s with engine := e }

/-- The same machine with other events still to come. -/
def State.withPending (s : State) (p : List HostEvent) : State := { s with pending := p }

/-- `respond(code)` and `respond(code, digest)`: the host has the command's result (R9, R65). -/
def State.respond (s : State) (code : ResultCode) (digest : Option (List Byte)) : State :=
  { s with responses := s.responses ++ [⟨code, digest⟩] }

/-- The engine's part of `fail(code)`: `status <- CORRUPTED; cerr <- code`, and nothing else (R144). -/
def DigestState.corrupt (e : DigestState) (code : ResultCode) : DigestState :=
  { e with status := .corrupted, cerr := code }

/-- `fail(code)`: "this engine's form of trap entry" (R144). It saves `cerr`, marks the state CORRUPTED and responds
with the code. -/
def State.fail (s : State) (code : ResultCode) : State :=
  (s.withEngine (s.engine.corrupt code)).respond code none

/-- The engine's form of recovery from an error, "creating a new one" (R146): every field at its initial value, which
is what INIT writes (R80) and what reset leaves (R160). -/
def DigestState.fresh : DigestState where
  h        := ⟨iv0, iv1, iv2, iv3, iv4⟩
  block    := Memory.zeros
  blockLen := 0#7
  bitLen   := 0#64
  status   := .active
  cerr     := .ok

end Sys2Proof.Machine
end

