-- ==== Sys2Proof/Machine/Operands.lean ====
section
/-! DEFINITION. The engine's operand forms: bytes taken as they are (30_encoding.md R62), the big-endian conversions
between bytes and words (00_scope.md R8, 20_memory.md R43 to R45), and the numbers of the codes that cross the interface
or stand in the state (30_encoding.md R65 to R67). -/

namespace Sys2Proof.Machine

/-- `be32(b0, b1, b2, b3)`: the first byte is the most significant (R8). -/
def be32 (b0 b1 b2 b3 : Byte) : Word := b0 ++ b1 ++ b2 ++ b3

/-- `be_bytes32(v)`: byte j is `v[31-8j : 24-8j]` (R8). -/
def beBytes32 (v : Word) : List Byte := (List.range 4).map fun j => v.extractLsb' (24 - 8 * j) 8

/-- `be_bytes64(v)`: byte j is `v[63-8j : 56-8j]` (R8). -/
def beBytes64 (v : DoubleWord) : List Byte := (List.range 8).map fun j => v.extractLsb' (56 - 8 * j) 8

/-- `W[i]` for i in 0..15: the bytes 4i..4i+3 of the block as a big-endian word (R43, R100). -/
def blockWord (bytes : List Byte) (i : Nat) : Word :=
  be32 (bytes.getD (4 * i) 0) (bytes.getD (4 * i + 1) 0) (bytes.getD (4 * i + 2) 0) (bytes.getD (4 * i + 3) 0)

/-- `PROJECT(h)`: digest byte i is the bits `8*(3 - i mod 4) + 7 : 8*(3 - i mod 4)` of `h[i / 4]` (R127, R45). -/
def project (h : HashWords) : List Byte :=
  (List.range 20).map fun i => (h.get (i / 4)).extractLsb' (8 * (3 - i % 4)) 8

/-- The number of a result code (R66). -/
def ResultCode.code : ResultCode → BitVec 2
  | .ok           => 0#2
  | .nullInput    => 1#2
  | .inputTooLong => 2#2
  | .stateError   => 3#2

/-- The byte RESULT of a response: bits 1:0 the code, bits 7:2 zero (R65). -/
def Response.resultByte (r : Response) : Byte := 0#6 ++ r.result.code

/-- The 2-bit encoding of `status` (R67). -/
def Status.code : Status → BitVec 2
  | .active    => 0#2
  | .finalized => 1#2
  | .corrupted => 2#2

/-- The status that a 2-bit value encodes: the value 3 is unused (R67). -/
def statusOfCode (b : BitVec 2) : Option Status :=
  if b = 0#2 then some .active
  else if b = 1#2 then some .finalized
  else if b = 2#2 then some .corrupted
  else none

end Sys2Proof.Machine
end

