-- ==== Sys2Proof/Machine/Flags.lean ====
section
/-! DEFINITION. The engine's only flags are `status` and `cerr` (10_state.md R31): the checks that read them
(60_exceptions.md R145), and the overflow of the bit-length counter (40_init_update.md R83). -/

namespace Sys2Proof.Machine

/-- One more byte would overflow `bit_len`: `bit_len + 8 >= 2^64`, "computed without wrap" (R83). -/
def bitLenOverflows (bitLen : DoubleWord) : Bool := decide (2 ^ 64 ≤ bitLen.toNat + 8)

/-- The order of checks on entry to UPDATE and FINALIZE (R145): a CORRUPTED engine responds `cerr` and does nothing
else, a FINALIZED one fails with STATE_ERROR, and only an ACTIVE one does the command's work. -/
def checkStatus (s : State) (work : Host.Outcome State Fault Refusal) : Host.Outcome State Fault Refusal :=
  match s.engine.status with
  | .corrupted => .next (s.respond s.engine.cerr none)
  | .finalized => .next (s.fail .stateError)
  | .active    => work

end Sys2Proof.Machine
end

