-- ==== Sys2Proof/Machine/Compress.lean ====
section
/-! DEFINITION. The compression function COMPRESS(h, block) (41_compression.md R100 to R110), and the hardware view of
it that runs one round a step (R111). 80 rounds: 90_conflicts.md C1. -/

namespace Sys2Proof.Machine

/-! ### Mixing functions and constants -/

/-- Ch, rounds 0-19 (R104). -/
def ch (b c d : Word) : Word := (b &&& c) ||| ((~~~b) &&& d)

/-- Parity, rounds 20-39 and 60-79 (R105). -/
def parity (b c d : Word) : Word := b ^^^ c ^^^ d

/-- Maj, rounds 40-59 (R106). -/
def maj (b c d : Word) : Word := (b &&& c) ||| (b &&& d) ||| (c &&& d)

/-- The mixing function of pass `p` (R103). Passes are 0 to 3; no round is in another. -/
def passMix : Nat → Word → Word → Word → Word
  | 0 => ch
  | 1 => parity
  | 2 => maj
  | _ => parity

/-- The pass of round `t`: `p = floor(t / 20)` (R103). -/
def passOf (t : Nat) : Nat := t / 20

/-- `f_t(B, C, D)` (R103). -/
def roundMix (t : Nat) (b c d : Word) : Word := passMix (passOf t) b c d

/-- `K_t` (R103, R107). -/
def roundConstant (t : Nat) : Word := passConstant (passOf t)

/-! ### The message schedule -/

/-- `W[t]` from the schedule words before it, the newest first: `W[t-3]`, `W[t-8]`, `W[t-14]` and `W[t-16]` are the words
3, 8, 14 and 16 places back (R101). -/
def nextScheduleWord (newestFirst : List Word) : Word :=
  rotl (newestFirst.getD 2 0 ^^^ newestFirst.getD 7 0 ^^^ newestFirst.getD 13 0 ^^^ newestFirst.getD 15 0) 1

/-- `n` more schedule words on top of those there, the newest first (R101). -/
def extendSchedule : Nat → List Word → List Word
  | 0, ws => ws
  | n + 1, ws => extendSchedule n (nextScheduleWord ws :: ws)

/-- `W[0..15]`, the block's bytes as big-endian words (R100). -/
def firstScheduleWords (bytes : List Byte) : List Word := (List.range 16).map (blockWord bytes)

/-- `W[0..79]` (R100, R101). -/
def schedule (bytes : List Byte) : List Word :=
  (extendSchedule 64 (firstScheduleWords bytes).reverse).reverse

/-! ### The rounds -/

/-- The working registers A, B, C, D, E, which exist only while a compression runs (R28). -/
structure Working where
  a : Word
  b : Word
  c : Word
  d : Word
  e : Word
deriving DecidableEq, Repr

/-- "Copy `h` into working registers" (R102). -/
def loadWorking (h : HashWords) : Working := ⟨h.h0, h.h1, h.h2, h.h3, h.h4⟩

/-- ROUND(t) with the schedule word `w` (R108). Every right side reads the values from before the round. -/
def shaRound (t : Nat) (w : Word) (k : Working) : Working where
  a := rotl k.a 5 + roundMix t k.b k.c k.d + k.e + w + roundConstant t
  b := k.a
  c := rotl k.b 30
  d := k.c
  e := k.d

/-- ROUND(t), ROUND(t+1), and so on, one for each schedule word, in increasing order (R108). -/
def shaRounds : Nat → List Word → Working → Working
  | _, [], k => k
  | t, w :: ws, k => shaRounds (t + 1) ws (shaRound t w k)

/-- "Add working registers back into `h`" (R109). -/
def feedForward (h : HashWords) (k : Working) : HashWords :=
  ⟨h.h0 + k.a, h.h1 + k.b, h.h2 + k.c, h.h3 + k.d, h.h4 + k.e⟩

/-- `COMPRESS(h, block)` for the 64 bytes of the block (R110). It is marked irreducible so that no proof about a command
unfolds 80 rounds by accident; `Laws/Compress.lean` and `unfold compress` open it where it is meant. -/
@[irreducible] def compress (h : HashWords) (bytes : List Byte) : HashWords :=
  feedForward h (shaRounds 0 (schedule bytes) (loadWorking h))

/-! ### The round pipeline -/

/-- An engine in the middle of a compression that computes one round a step and `W[t]` just before round t uses it (R111):
the round index t, the working registers, and the last 16 schedule words, the newest first. Before round 16 the window
holds the block's words, and they turn round as they are used. -/
structure RoundPipe where
  t      : Nat
  work   : Working
  window : List Word
deriving DecidableEq, Repr

/-- The schedule word of the round about to run: for t < 16 the oldest word of the window, from then on computed from it
(R100, R101). -/
def RoundPipe.word (p : RoundPipe) : Word :=
  if p.t < 16 then p.window.getD 15 0 else nextScheduleWord p.window

/-- One round: the word enters the window and the oldest one leaves it (R111, R108). -/
def RoundPipe.step (p : RoundPipe) : RoundPipe where
  t      := p.t + 1
  work   := shaRound p.t p.word p.work
  window := p.word :: p.window.take 15

/-- `n` rounds, one after another. -/
def RoundPipe.steps : Nat → RoundPipe → RoundPipe
  | 0, p => p
  | n + 1, p => RoundPipe.steps n p.step

/-- The pipeline at the start of a compression (R102, R100). -/
def RoundPipe.start (h : HashWords) (bytes : List Byte) : RoundPipe where
  t      := 0
  work   := loadWorking h
  window := (firstScheduleWords bytes).reverse

/-- COMPRESS by the pipeline: 80 steps, then the feed-forward. "The result must equal rule R110" (R111). -/
def compressPipelined (h : HashWords) (bytes : List Byte) : HashWords :=
  feedForward h (RoundPipe.steps 80 (RoundPipe.start h bytes)).work

end Sys2Proof.Machine
end

