-- ==== Sys2Proof/Machine/Accumulator.lean ====
section
/-! DEFINITION. INIT and UPDATE, the message block accumulator (40_init_update.md R80 to R86). -/

namespace Sys2Proof.Machine

/-- INIT (R80): every field is written, whatever the status was, and the response is OK. -/
def execInit (s : State) : Host.Outcome State Fault Refusal :=
  .next ((s.withEngine DigestState.fresh).respond .ok none)

/-- What absorbing bytes comes to. -/
inductive Absorbed where
  /-- `DONE`: every byte is absorbed (R82). -/
  | done (e : DigestState)
  /-- `OVERFLOW`: a byte would overflow `bit_len`; the bytes before it are absorbed, it and the rest are not (R83, R86). -/
  | overflow (e : DigestState)
  /-- `block_len` is no index of `block`: no run reaches such a state (R26; log 13). -/
  | badIndex
deriving DecidableEq, Repr

/-- "whenever `block_len` reaches 64, the Compression Function runs on `block`, then `block_len` resets to 0" (R84).
The bytes of the block stay as they are (R29). -/
def DigestState.drain (e : DigestState) : DigestState :=
  if e.blockLen = 64#7 then { e with h := compress e.h e.block.bytes, blockLen := 0#7 } else e

/-- ABSORB(x) (R82). On OVERFLOW nothing is written. -/
def absorb (x : Byte) (e : DigestState) : Absorbed :=
  if bitLenOverflows e.bitLen then .overflow e
  else
    match e.block.store e.blockLen.toNat x with
    | none => .badIndex
    | some block =>
      .done ({ e with block := block, blockLen := e.blockLen + 1#7, bitLen := e.bitLen + 8#64 }).drain

/-- ABSORB over a payload, `data[0]` first, up to the first OVERFLOW (R81, R86). -/
def absorbAll : List Byte → DigestState → Absorbed
  | [], e => .done e
  | x :: rest, e =>
    match absorb x e with
    | .done e'     => absorbAll rest e'
    | .overflow e' => .overflow e'
    | .badIndex    => .badIndex

/-- The end of an UPDATE on an ACTIVE engine: respond OK, or `fail(INPUT_TOO_LONG)` (R81, R86). -/
def finishUpdate (s : State) : Absorbed → Host.Outcome State Fault Refusal
  | .done e     => .next ((s.withEngine e).respond .ok none)
  | .overflow e => .next ((s.withEngine e).fail .inputTooLong)
  | .badIndex   => .fault .blockIndexOutOfRange

/-- UPDATE (R81). -/
def execUpdate (data : List Byte) (s : State) : Host.Outcome State Fault Refusal :=
  checkStatus s (finishUpdate s (absorbAll data s.engine))

end Sys2Proof.Machine
end

