-- ==== Sys2Proof/Machine/Finalize.lean ====
section
/-! DEFINITION. FINALIZE, the padding and finalization unit (42_finalize.md R120 to R129). -/

namespace Sys2Proof.Machine

/-- The length field starts at this index of the last block (R125). -/
def lengthFieldAt : Nat := 56

/-- The case split is on the position before padding, `b = block_len`: up to 55, one block is enough (R122). -/
def fitsOneBlock (b : Nat) : Bool := decide (b ≤ 55)

/-- The hash words and the block when everything but the length field is padded: `marked` is the block with the marker
byte at `b`. One-block case: zeros up to index 55 (R123). Two-block case: zeros to the end of the block, a compression,
and "a fresh all-zero block is padded to position 56" (R124). -/
def padToLength (h : HashWords) (marked : Memory) (b : Nat) : HashWords × Memory :=
  if fitsOneBlock b then (h, marked.putZeros (b + 1) lengthFieldAt)
  else
    let filled := marked.putZeros (b + 1) blockSize
    (compress h filled.bytes, filled.putZeros 0 lengthFieldAt)

/-- The block with the length field in its last 8 bytes, big-endian (R125, R44). -/
def putLength (block : Memory) (bitLen : DoubleWord) : Memory :=
  block.putBytes lengthFieldAt (beBytes64 bitLen)

/-- The final hash words from the block with its marker byte: padding, length field, final compression (R122 to R126). -/
def finalHash (e : DigestState) (marked : Memory) : HashWords :=
  let padded := padToLength e.h marked e.blockLen.toNat
  compress padded.1 (putLength padded.2 e.bitLen).bytes

/-- CLEAR(): the buffer and the counters are cleared, the status is FINALIZED, `h` keeps the final hash words, and `cerr`
is not written (R128). -/
def DigestState.cleared (e : DigestState) (h : HashWords) : DigestState :=
  { e with h := h, block := Memory.zeros, blockLen := 0#7, bitLen := 0#64, status := .finalized }

/-- FINALIZE on an ACTIVE engine, from the block with its marker byte (R121), or no block where `block_len` is no index
of it (log 13). -/
def finishFinalize (s : State) : Option Memory → Host.Outcome State Fault Refusal
  | none => .fault .blockIndexOutOfRange
  | some marked =>
    let h := finalHash s.engine marked
    .next ((s.withEngine (s.engine.cleared h)).respond .ok (some (project h)))

/-- FINALIZE (R120). -/
def execFinalize (s : State) : Host.Outcome State Fault Refusal :=
  checkStatus s (finishFinalize s (s.engine.block.store s.engine.blockLen.toNat padMarker))

end Sys2Proof.Machine
end

