-- ==== Sys2Proof/Machine/Events.lean ====
section
/-! DEFINITION. What `step` does with the next event of the host or the platform (20_memory.md R48, R50;
70_reset_and_hazards.md R160, R161, R164). `step` itself (Step.lean) only calls it. -/

namespace Sys2Proof.Machine

/-- The engine meets a command: it decodes it and runs the instruction, or refuses a reserved one (R60, R64). -/
def runCommand (c : Command) (s : State) : Host.Outcome State Fault Refusal :=
  match decode c with
  | .ok i    => exec i s
  | .error r => .refused (.reservedCommand r)

/-- Hardware reset: every field of the engine at its reset value, and no response (R160). What the host has already
heard and what it has still to send are not the engine's, and stay. -/
def hardwareReset (s : State) : State := s.withEngine DigestState.reset

/-- Reset in the middle of a command: "it gives no response, and the state is the reset state" (R160). A reserved command
has no middle: it is refused, as without the reset (R64; log 4). -/
def abandonCommand (c : Command) (s : State) : Host.Outcome State Fault Refusal :=
  match decode c with
  | .ok _    => .next (hardwareReset s)
  | .error r => .refused (.reservedCommand r)

/-- One event. -/
def runEvent (ev : HostEvent) (s : State) : Host.Outcome State Fault Refusal :=
  match ev with
  | .command c     => runCommand c s
  | .reset         => .next (hardwareReset s)
  | .resetDuring c => abandonCommand c s

/-- The next event, taken off the host's list before it is run; with none to come, the engine rests as it is (log 2). -/
def stepEvents (s : State) : Host.Outcome State Fault Refusal :=
  match s.pending with
  | []         => .next s
  | ev :: rest => runEvent ev (s.withPending rest)

/-- The command of an opcode-table row as the very next event, before all others (log 3). -/
def issueFirst (c : Command) (s : State) : State := s.withPending (.command c :: s.pending)

/-- An instruction issued by the host, encoded. -/
def issued (i : Instr) : HostEvent := .command (encode i)

end Sys2Proof.Machine
end

