-- ==== Sys2Proof/Machine/Step.lean ====
section
/-! DEFINITION. One step of the machine: one event, run to its end (20_memory.md R48). -/

namespace Sys2Proof.Machine

/-- One step. -/
def step (s : State) : Host.Outcome State Fault Refusal := stepEvents s

/-- The machine whose very next step meets the command with the bits `w` (log 3). -/
def State.withFetchWord (s : State) (nbits w : Nat) : State := issueFirst (commandOfBits nbits w) s

end Sys2Proof.Machine
end

