-- ==== Sys2Proof/Config.lean ====
section
/-! DEFINITION. What a platform fixes and the spec leaves open (00_scope.md R4: `N_ENGINES` and `PLATFORM_MAP`).
Both are uninterpreted: nothing in Lean can compute or prove a value of either, so every claim holds for all of them. -/

namespace Sys2Proof

/-- `N_ENGINES - 1` (60_exceptions.md R150, 92_eei_decisions.md D18). -/
opaque Config.extraEngines : Nat

/-- `N_ENGINES >= 1`, how many engines the platform holds (R150, D18). -/
def Config.engineCount : Nat := Config.extraEngines + 1

/-- `PLATFORM_MAP`: where the platform places the command interface of each engine (20_memory.md R49, D13).
No rule reads it, and no definition of this model does. -/
opaque Config.platformMap : Nat → Nat

end Sys2Proof
end

