-- ==== Sys2Proof/Machine/Platform.lean ====
section
/-! DEFINITION. A platform of `N_ENGINES` independent engines (60_exceptions.md R150, R151; 92_eei_decisions.md D18). -/

namespace Sys2Proof.Machine

/-- Each engine has its own state and its own stream of commands and responses; nothing is shared (R150). -/
structure Platform where
  engines : Vector State Config.engineCount
deriving DecidableEq, Repr

/-- Every engine after reset (R160). There is no start-up order (R150). -/
def Platform.reset : Platform := ⟨Vector.replicate Config.engineCount State.reset⟩

/-- One step of engine `k`. "A command to one engine never changes another" (R150). DESIGN CHOICE (log 22): a reset
(R161) is an event of one engine's own list and reaches that engine alone; the spec leaves open whether it reaches them all. -/
def Platform.step (k : Fin Config.engineCount) (p : Platform) : Host.Outcome Platform Fault Refusal :=
  match Machine.step p.engines[k] with
  | .next s'   => .next ⟨p.engines.set k s'⟩
  | .fault r   => .fault r
  | .refused r => .refused r

end Sys2Proof.Machine
end

