-- ==== Sys2Proof/Machine/Sha1.lean ====
section
/-! DEFINITION. The function of a whole message that the engine computes, said without the engine (42_finalize.md R131):
pad the message, cut it into blocks, fold COMPRESS over them from IV, project. -/

namespace Sys2Proof.Machine

/-- `z`, "the least number >= 0 with (|m| + 1 + z + 8) mod 64 = 0", for a message of `n` bytes (R131). -/
def zeroPadding (n : Nat) : Nat := (64 - (n + 9) % 64) % 64

/-- The padded message `m ++ [0x80] ++ z zero bytes ++ be_bytes64(8|m|)` (R131). -/
def paddedMessage (m : List Byte) : List Byte :=
  m ++ [padMarker] ++ List.replicate (zeroPadding m.length) 0x00#8 ++ beBytes64 (BitVec.ofNat 64 (8 * m.length))

/-- The first `n` blocks of 64 bytes, in order. -/
def firstBlocks : Nat → List Byte → List (List Byte)
  | 0, _ => []
  | n + 1, bytes => bytes.take blockSize :: firstBlocks n (bytes.drop blockSize)

/-- "the fold of `COMPRESS` from `IV` over the `floor(|m|/64)` complete 64-byte blocks of `m`, in order" (R88). -/
def hashCompleteBlocks (m : List Byte) : HashWords :=
  (firstBlocks (m.length / blockSize) m).foldl compress HashWords.initial

/-- `SHA1(m)` (R131). -/
def sha1 (m : List Byte) : List Byte := project (hashCompleteBlocks (paddedMessage m))

end Sys2Proof.Machine
end

