-- ==== Sys2Proof/Safety.lean ====
section
/-! DEFINITION. The terms that claims use: the invariants of the engine (10_state.md section 3), runs and what the host
observes of them (70_reset_and_hazards.md R167), and when two engines look the same from outside (R29, R86). -/

namespace Sys2Proof.Machine

/-- What holds of the engine between two commands (R22 to R27). -/
structure DigestState.Coherent (e : DigestState) : Prop where
  /-- The block buffer is in its canonical form. -/
  blockWf          : e.block.wf = true
  /-- "At the end of every command, 0 <= block_len <= 63" (R26). -/
  blockLenInRange  : e.blockLen.toNat ≤ 63
  /-- "Every write keeps it a multiple of 8" (R24). -/
  bitLenWholeBytes : e.bitLen.toNat % 8 = 0
  /-- While ACTIVE, `bit_len = 8 * n` and `block_len = n mod 64` (R27). -/
  activeLengths    : e.status = .active → e.blockLen.toNat = e.bitLen.toNat / 8 % 64
  /-- `cerr` holds OK unless the status is CORRUPTED (R25). -/
  noStoredError    : e.status ≠ .corrupted → e.cerr = .ok
  /-- In CORRUPTED it is INPUT_TOO_LONG or STATE_ERROR (R25). -/
  storedError      : e.status = .corrupted → e.cerr = .inputTooLong ∨ e.cerr = .stateError
  /-- In FINALIZED the buffer and the counters are cleared (R128). -/
  finalizedCleared : e.status = .finalized → e.block = Memory.zeros ∧ e.blockLen = 0#7 ∧ e.bitLen = 0#64

/-- A response that the engine may give: never NULL_INPUT (R141), and a digest only with OK and of 20 bytes (R65). -/
structure Response.Legal (r : Response) : Prop where
  notNullInput : r.result ≠ .nullInput
  digestForm   : ∀ d, r.digest = some d → r.result = .ok ∧ d.length = 20

/-- The invariant of the machine between two steps. -/
structure State.Inv (s : State) : Prop where
  engine    : s.engine.Coherent
  responses : ∀ r ∈ s.responses, r.Legal

/-- `n` steps, up to the first stop. -/
def run : Nat → State → Host.Outcome State Fault Refusal
  | 0, s => .next s
  | n + 1, s =>
    match step s with
    | .next s'   => run n s'
    | .fault r   => .fault r
    | .refused r => .refused r

/-- What the host observes of a run: the responses (R167, R33), or the reason why the model has no more steps. -/
inductive Observation where
  | responses (rs : List Response)
  | fault (r : Fault)
  | refused (r : Refusal)
deriving DecidableEq, Repr

/-- The observation of an outcome (R167). -/
def observe : Host.Outcome State Fault Refusal → Observation
  | .next s    => .responses s.responses
  | .fault r   => .fault r
  | .refused r => .refused r

/-- The two engines differ at most in bytes of `block` at or past `block_len` (R29). -/
structure DigestState.AgreeToBlockLen (e f : DigestState) : Prop where
  h        : e.h = f.h
  blockLen : e.blockLen = f.blockLen
  bitLen   : e.bitLen = f.bitLen
  status   : e.status = f.status
  cerr     : e.cerr = f.cerr
  block    : ∀ a, a < e.blockLen.toNat → e.block.get a = f.block.get a

end Sys2Proof.Machine
end

