-- ==== Sys2Proof/Certificates/Slice0/Obligations.lean ====
section
/-! DEFINITION. The statements for the provers, from the numbered rules of spec/. -/

open Sys2Proof Sys2Proof.Machine

/-! ### Encoding -/

/-- R61, R62, R63 (the bit patterns are the spec's own decision D2, log 10): the words of the three commands decode to them,
and the encoder gives these words. That a number of the opcode table is read as the header byte and then the payload bytes
(the clauses about `decodeTableWord`) is the model's reading, log 3. -/
def Obligations.SpecHeaderBytesDecode : Prop :=
  decode ⟨0x00#8, []⟩ = .ok .init ∧
  decode ⟨0x01#8, [0x61#8, 0x62#8, 0x63#8]⟩ = .ok (.update [0x61#8, 0x62#8, 0x63#8]) ∧
  decode ⟨0x01#8, []⟩ = .ok (.update []) ∧
  decode ⟨0x02#8, []⟩ = .ok .finalize ∧
  decodeTableWord 8 0x00 = some .init ∧
  decodeTableWord 8 0x01 = some (.update []) ∧
  decodeTableWord 32 0x63626101 = some (.update [0x61#8, 0x62#8, 0x63#8]) ∧
  decodeTableWord 8 0x02 = some .finalize ∧
  encode .init = ⟨0x00#8, []⟩ ∧
  (∀ data, encode (.update data) = ⟨0x01#8, data⟩) ∧
  encode .finalize = ⟨0x02#8, []⟩

/-- Decoding and encoding are inverse: every instruction, with every payload, comes back from its command, and every
command that decodes is the one command of its instruction. -/
def Obligations.DecodeEncodeInverse : Prop :=
  (∀ i : Instr, decode (encode i) = .ok i) ∧
  (∀ (c : Command) (i : Instr), decode c = .ok i → encode i = c)

/-- R64: the commands with a meaning are 0x00 and 0x02 with an empty payload and 0x01 with any; a step refuses every other
one by name (a refused outcome holds no state: nothing is changed, nothing is responded), and these it does not refuse. -/
def Obligations.ReservedCommandsAreRefused : Prop :=
  ∀ (s : State) (c : Command) (rest : List HostEvent), s.pending = .command c :: rest →
    ((c.header = 0x00#8 ∧ c.payload = []) ∨ c.header = 0x01#8 ∨ (c.header = 0x02#8 ∧ c.payload = []) →
      (∃ i, decode c = .ok i) ∧ ∀ r, step s ≠ .refused r) ∧
    (¬ ((c.header = 0x00#8 ∧ c.payload = []) ∨ c.header = 0x01#8 ∨ (c.header = 0x02#8 ∧ c.payload = [])) →
      ∃ r, step s = .refused (.reservedCommand r))

/-- R66 and the numbers of R67: the result codes, the byte RESULT, and the codes of the status, of which 3 is unused. -/
def Obligations.ResultAndStatusNumbers : Prop :=
  (∀ d, (⟨.ok, d⟩ : Response).resultByte = 0x00#8) ∧
  (∀ d, (⟨.nullInput, d⟩ : Response).resultByte = 0x01#8) ∧
  (∀ d, (⟨.inputTooLong, d⟩ : Response).resultByte = 0x02#8) ∧
  (∀ d, (⟨.stateError, d⟩ : Response).resultByte = 0x03#8) ∧
  statusOfCode 0#2 = some .active ∧ statusOfCode 1#2 = some .finalized ∧
  statusOfCode 2#2 = some .corrupted ∧ statusOfCode 3#2 = none ∧
  (∀ st : Status, statusOfCode st.code = some st)

/-! ### Steps and reset -/

/-- R48, R50: a step takes the next command off the host's list and runs the instruction it decodes to. -/
def Obligations.StepRunsDecodedCommand : Prop :=
  ∀ (s : State) (c : Command) (i : Instr) (rest : List HostEvent),
    s.pending = .command c :: rest → decode c = .ok i →
    step s = exec i { engine := s.engine, pending := rest, responses := s.responses }

/-- With no event to come the engine rests as it is: the model's choice (log 2). -/
def Obligations.StepWithoutEventRests : Prop :=
  ∀ s : State, s.pending = [] → step s = .next s

/-- R32: every field of the engine after reset, and INIT leaves the same (that hardware reset equals the INIT state is the
spec's own D6, log 5, and that INIT does so from every status its D5, log 6). -/
def Obligations.ResetLeavesInitialState : Prop :=
  State.reset.engine.h = ⟨0x67452301#32, 0xEFCDAB89#32, 0x98BADCFE#32, 0x10325476#32, 0xC3D2E1F0#32⟩ ∧
  (∀ a, State.reset.engine.block.get a = 0x00#8) ∧
  State.reset.engine.blockLen = 0#7 ∧
  State.reset.engine.bitLen = 0#64 ∧
  State.reset.engine.status = .active ∧
  State.reset.engine.cerr = .ok ∧
  (∀ s t : State, exec .init s = .next t → t.engine = State.reset.engine)

/-- R160, R161: a reset, between two commands or in the middle of one, leaves the engine's reset state, gives no response,
and takes only that event off the host's list (that the reset state is the one INIT leaves is the spec's own D6, log 5; what the
host's list and the responses keep is the model's own, logs 1 and 4). -/
def Obligations.ResetEventGivesResetStateSilently : Prop :=
  ∀ (s : State) (rest : List HostEvent),
    (s.pending = .reset :: rest ∨ ∃ c i, s.pending = .resetDuring c :: rest ∧ decode c = .ok i) →
    step s = .next { engine := State.reset.engine, pending := rest, responses := s.responses }

/-! ### INIT -/

/-- R80: in every status, INIT writes every field and responds OK (that every status accepts it is the spec's own D5, log
6). -/
def Obligations.InitRebuildsEveryField : Prop :=
  ∀ s : State, ∃ t : State, exec .init s = .next t ∧
    t.engine.h = ⟨0x67452301#32, 0xEFCDAB89#32, 0x98BADCFE#32, 0x10325476#32, 0xC3D2E1F0#32⟩ ∧
    (∀ a, t.engine.block.get a = 0x00#8) ∧
    t.engine.blockLen = 0#7 ∧ t.engine.bitLen = 0#64 ∧ t.engine.status = .active ∧ t.engine.cerr = .ok ∧
    t.pending = s.pending ∧ t.responses = s.responses ++ [⟨.ok, none⟩] ∧
    (∀ t', exec .init t = .next t' → t'.engine = t.engine)

/-! ### Words -/

/-- R7: ROTL by the formula on numbers. -/
def Obligations.RotlFormula : Prop :=
  ∀ (x : Word) (n : Nat), 0 < n → n < 32 →
    (rotl x n).toNat = (x.toNat * 2 ^ n) % 2 ^ 32 ||| x.toNat / 2 ^ (32 - n)

/-- R8: the big-endian conversions, on numbers. -/
def Obligations.BigEndianConversions : Prop :=
  (∀ b0 b1 b2 b3 : Byte,
    (be32 b0 b1 b2 b3).toNat = b0.toNat * 2 ^ 24 + b1.toNat * 2 ^ 16 + b2.toNat * 2 ^ 8 + b3.toNat) ∧
  (∀ v : DoubleWord, (beBytes64 v).length = 8 ∧
    ∀ j, j < 8 → ((beBytes64 v).getD j 0).toNat = v.toNat / 2 ^ (56 - 8 * j) % 2 ^ 8) ∧
  (∀ v : Word, (beBytes32 v).length = 4 ∧
    ∀ j, j < 4 → ((beBytes32 v).getD j 0).toNat = v.toNat / 2 ^ (24 - 8 * j) % 2 ^ 8)

/-! ### The compression function -/

/-- R104, R105, R106: each bit of Ch is the bit of C where B has 1 and the bit of D where B has 0, each bit of Parity the sum
of the three bits modulo 2, each bit of Maj their majority; and R104's corner cases. -/
def Obligations.MixingFunctionsBitwise : Prop :=
  (∀ (b c d : Word) (i : Nat), i < 32 →
    (ch b c d).getLsbD i = (if b.getLsbD i then c.getLsbD i else d.getLsbD i) ∧
    (parity b c d).getLsbD i =
      decide (((b.getLsbD i).toNat + (c.getLsbD i).toNat + (d.getLsbD i).toNat) % 2 = 1) ∧
    (maj b c d).getLsbD i =
      decide (2 ≤ (b.getLsbD i).toNat + (c.getLsbD i).toNat + (d.getLsbD i).toNat)) ∧
  (∀ c d : Word, ch 0xFFFFFFFF#32 c d = c ∧ ch 0x00000000#32 c d = d)

/-- R103, R107: the mixing function and the constant of each of the 80 rounds. -/
def Obligations.RoundSelectsPass : Prop :=
  ∀ t : Nat,
    (t ≤ 19 → roundMix t = ch ∧ roundConstant t = 0x5A827999#32) ∧
    (20 ≤ t ∧ t ≤ 39 → roundMix t = parity ∧ roundConstant t = 0x6ED9EBA1#32) ∧
    (40 ≤ t ∧ t ≤ 59 → roundMix t = maj ∧ roundConstant t = 0x8F1BBCDC#32) ∧
    (60 ≤ t ∧ t ≤ 79 → roundMix t = parity ∧ roundConstant t = 0xCA62C1D6#32)

/-- R100, R101: the 80 schedule words of a block. -/
def Obligations.ScheduleFollowsRecurrence : Prop :=
  ∀ bytes : List Byte, bytes.length = 64 →
    (schedule bytes).length = 80 ∧
    (∀ i, i < 16 → (schedule bytes).getD i 0 =
      be32 (bytes.getD (4 * i) 0) (bytes.getD (4 * i + 1) 0) (bytes.getD (4 * i + 2) 0)
        (bytes.getD (4 * i + 3) 0)) ∧
    (∀ t, 16 ≤ t → t < 80 → (schedule bytes).getD t 0 =
      rotl ((schedule bytes).getD (t - 3) 0 ^^^ (schedule bytes).getD (t - 8) 0 ^^^
        (schedule bytes).getD (t - 14) 0 ^^^ (schedule bytes).getD (t - 16) 0) 1)

/-- R108: one round. -/
def Obligations.RoundEquations : Prop :=
  ∀ (t : Nat) (w : Word) (k : Working),
    (shaRound t w k).a = rotl k.a 5 + roundMix t k.b k.c k.d + k.e + w + roundConstant t ∧
    (shaRound t w k).b = k.a ∧
    (shaRound t w k).c = rotl k.b 30 ∧
    (shaRound t w k).d = k.c ∧
    (shaRound t w k).e = k.d

/-- R102, R109, R110: COMPRESS loads the working registers from `h`, runs ROUND(0) to ROUND(79) in that order, each with
its own schedule word, and adds the working registers back into `h`. -/
def Obligations.CompressIsEightyRounds : Prop :=
  ∀ (h : HashWords) (bytes : List Byte), bytes.length = 64 →
    let k := (List.range 80).foldl (fun k t => shaRound t ((schedule bytes).getD t 0) k) ⟨h.h0, h.h1, h.h2, h.h3, h.h4⟩
    compress h bytes = ⟨h.h0 + k.a, h.h1 + k.b, h.h2 + k.c, h.h3 + k.d, h.h4 + k.e⟩

/-- The example of R110. -/
def Obligations.CompressOfZeroBlock : Prop :=
  compress HashWords.initial (List.replicate 64 0x00#8) =
    ⟨0x92B404E5#32, 0x56588CED#32, 0x6C1ACD4E#32, 0xBF053F68#32, 0x09F73A93#32⟩

/-- R111 (the pipeline itself is the model's reading of D17, log 16): computing one round a step, and each schedule word
just before its round, gives what R110 gives. -/
def Obligations.PipelineEqualsCompress : Prop :=
  ∀ (h : HashWords) (bytes : List Byte), compressPipelined h bytes = compress h bytes

/-! ### Errors -/

/-- R144: `fail(code)` marks the engine CORRUPTED, stores and responds the code, and does nothing else; and corruption is
sticky: UPDATE, with any payload, and FINALIZE then respond the stored code and write nothing. (The empty UPDATE among
them is the spec's own reading, D8.) -/
def Obligations.FailStoresErrorAndSticks : Prop :=
  (∀ (s : State) (code : ResultCode), s.fail code =
    { engine    := { s.engine with status := .corrupted, cerr := code }
      pending   := s.pending
      responses := s.responses ++ [⟨code, none⟩] }) ∧
  (∀ s : State, s.engine.status = .corrupted →
    (∀ data, exec (.update data) s = .next { s with responses := s.responses ++ [⟨s.engine.cerr, none⟩] }) ∧
    exec .finalize s = .next { s with responses := s.responses ++ [⟨s.engine.cerr, none⟩] })

/-- R143: on a FINALIZED engine UPDATE and FINALIZE fail with STATE_ERROR. The second FINALIZE and the empty UPDATE are the
spec's own decisions D7 and D8, on which it says that no claim about a device should rest (logs 7 and 8). -/
def Obligations.FinalizedEngineFailsWithStateError : Prop :=
  ∀ s : State, s.engine.status = .finalized →
    (∀ data, exec (.update data) s = .next
      { engine    := { s.engine with status := .corrupted, cerr := .stateError }
        pending   := s.pending
        responses := s.responses ++ [⟨.stateError, none⟩] }) ∧
    exec .finalize s = .next
      { engine    := { s.engine with status := .corrupted, cerr := .stateError }
        pending   := s.pending
        responses := s.responses ++ [⟨.stateError, none⟩] }

/-- Where `block_len` is no index of the block, which no run reaches, a command that would write there stops with a fault:
the model's choice (log 13). -/
def Obligations.BadBlockLenFaults : Prop :=
  ∀ s : State, s.engine.status = .active → 64 ≤ s.engine.blockLen.toNat →
    exec .finalize s = .fault .blockIndexOutOfRange ∧
    (∀ x xs, s.engine.bitLen.toNat + 8 < 2 ^ 64 →
      exec (.update (x :: xs)) s = .fault .blockIndexOutOfRange)

/-! ### UPDATE -/

/-- R82 with R81, R83, R84 and R86, on an ACTIVE engine: one byte is absorbed, and OK responded. It goes to
`block[block_len]`, and no other byte of the block changes; when it is the 64th, the block is compressed and `block_len` starts
again from 0. A byte that would overflow `bit_len` fails with INPUT_TOO_LONG and writes nothing else. (That the bytes of the
block stay after the compression is the spec's own decision D11 of R29, log 12; what an overflow leaves is its D9, log 11.) -/
def Obligations.AbsorbOneByte : Prop :=
  ∀ (s : State) (x : Byte), s.engine.status = .active → s.engine.blockLen.toNat ≤ 63 →
    (s.engine.bitLen.toNat + 8 < 2 ^ 64 → ∃ t, exec (.update [x]) s = .next t ∧
      (∀ a, t.engine.block.get a = if a = s.engine.blockLen.toNat then x else s.engine.block.get a) ∧
      t.engine.bitLen.toNat = s.engine.bitLen.toNat + 8 ∧
      (s.engine.blockLen.toNat < 63 →
        t.engine.blockLen.toNat = s.engine.blockLen.toNat + 1 ∧ t.engine.h = s.engine.h) ∧
      (s.engine.blockLen.toNat = 63 →
        t.engine.blockLen = 0#7 ∧
        t.engine.h = compress s.engine.h ((List.range 64).map t.engine.block.get)) ∧
      t.engine.status = .active ∧ t.engine.cerr = s.engine.cerr ∧
      t.pending = s.pending ∧ t.responses = s.responses ++ [⟨.ok, none⟩]) ∧
    (2 ^ 64 ≤ s.engine.bitLen.toNat + 8 → exec (.update [x]) s = .next
      { engine    := { s.engine with status := .corrupted, cerr := .inputTooLong }
        pending   := s.pending
        responses := s.responses ++ [⟨.inputTooLong, none⟩] })

/-- R85, on an ACTIVE engine: an empty UPDATE changes nothing and responds OK. -/
def Obligations.EmptyUpdateOnActiveEngine : Prop :=
  ∀ s : State, s.engine.status = .active →
    exec (.update []) s = .next { s with responses := s.responses ++ [⟨.ok, none⟩] }

/-- R84, R41: an UPDATE that stays inside the limit completes. `block_len` ends at (b + n) mod 64 and `bit_len` is 8n more;
a byte of the block that no payload byte goes to is unchanged, and `h` is unchanged where no block fills. (Where a block
fills, that its bytes stay after the compression is the spec's own decision D11 of R29, log 12.) -/
def Obligations.UpdateWithinLimitCompletes : Prop :=
  ∀ (s : State) (data : List Byte), s.engine.status = .active → s.engine.blockLen.toNat ≤ 63 →
    s.engine.bitLen.toNat + 8 * data.length < 2 ^ 64 →
    ∃ t, exec (.update data) s = .next t ∧
      t.engine.blockLen.toNat = (s.engine.blockLen.toNat + data.length) % 64 ∧
      t.engine.bitLen.toNat = s.engine.bitLen.toNat + 8 * data.length ∧
      (∀ a, (∀ k, k < data.length → (s.engine.blockLen.toNat + k) % 64 ≠ a) →
        t.engine.block.get a = s.engine.block.get a) ∧
      (s.engine.blockLen.toNat + data.length < 64 → t.engine.h = s.engine.h) ∧
      t.engine.status = .active ∧ t.engine.cerr = s.engine.cerr ∧
      t.pending = s.pending ∧ t.responses = s.responses ++ [⟨.ok, none⟩]

/-- R86: when the byte `y` overflows, the bytes before it are absorbed as an UPDATE of them alone would, `y` and the rest
are not, and the command fails with INPUT_TOO_LONG; every later UPDATE and FINALIZE responds it, and INIT overwrites all.
(What is left in the fields is the spec's own D9, log 11; that an empty UPDATE is among the later ones that fail is its D8, log
8, on which it says that no claim about a device should rest; that INIT is accepted on the CORRUPTED engine is its D5, log 6.) -/
def Obligations.OverflowInMidPayload : Prop :=
  ∀ (s : State) (xs : List Byte) (y : Byte) (zs : List Byte),
    s.engine.status = .active → s.engine.blockLen.toNat ≤ 63 →
    s.engine.bitLen.toNat + 8 * xs.length = 2 ^ 64 - 8 →
    ∃ u t, exec (.update xs) s = .next u ∧ u.responses = s.responses ++ [⟨.ok, none⟩] ∧
      exec (.update (xs ++ y :: zs)) s = .next t ∧
      t.engine = { u.engine with status := .corrupted, cerr := .inputTooLong } ∧
      t.pending = s.pending ∧ t.responses = s.responses ++ [⟨.inputTooLong, none⟩] ∧
      (∀ data, exec (.update data) t = .next { t with responses := t.responses ++ [⟨.inputTooLong, none⟩] }) ∧
      exec .finalize t = .next { t with responses := t.responses ++ [⟨.inputTooLong, none⟩] } ∧
      exec .init t = .next
        { engine := State.reset.engine, pending := t.pending, responses := t.responses ++ [⟨.ok, none⟩] }

/-- R83: a byte overflows exactly when `bit_len = 2^64 - 8`; the largest message accepted after INIT has 2^61 - 1 bytes;
and `bit_len` never wraps: no UPDATE makes it smaller. (The length of the largest message is marked as derived by the spec;
that INIT is accepted in every status is its own D5, log 6.) -/
def Obligations.OverflowExactlyAtLimit : Prop :=
  (∀ (s : State) (x : Byte), s.engine.status = .active → s.engine.blockLen.toNat ≤ 63 →
    s.engine.bitLen.toNat % 8 = 0 →
    ∃ t, exec (.update [x]) s = .next t ∧
      (t.engine.status = .corrupted ↔ s.engine.bitLen.toNat = 2 ^ 64 - 8)) ∧
  (∀ (s : State) (m : List Byte), ∃ t u, exec .init s = .next t ∧ exec (.update m) t = .next u ∧
    u.responses = t.responses ++ [⟨if m.length ≤ 2 ^ 61 - 1 then .ok else .inputTooLong, none⟩]) ∧
  (∀ (s t : State) (data : List Byte), exec (.update data) s = .next t →
    s.engine.bitLen.toNat ≤ t.engine.bitLen.toNat)

/-- R87 (which the spec marks as derived): from an ACTIVE engine, with no overflow, UPDATE m1; UPDATE m2 leaves the same
engine as UPDATE m1 ++ m2, and all respond OK. -/
def Obligations.ChunkingInvariance : Prop :=
  ∀ (s : State) (m1 m2 : List Byte), s.engine.status = .active → s.engine.blockLen.toNat ≤ 63 →
    s.engine.bitLen.toNat + 8 * (m1.length + m2.length) < 2 ^ 64 →
    ∃ t1 t2 u, exec (.update m1) s = .next t1 ∧ exec (.update m2) t1 = .next t2 ∧
      exec (.update (m1 ++ m2)) s = .next u ∧ t2.engine = u.engine ∧
      t2.responses = s.responses ++ [⟨.ok, none⟩, ⟨.ok, none⟩] ∧
      u.responses = s.responses ++ [⟨.ok, none⟩]

/-- R88 (which the spec marks as derived), with the lengths of R27: the engine after INIT and any UPDATEs whose bytes
together are the message `m`, inside the limit. (From any state: that INIT is accepted in every status is the spec's own D5,
log 6.) -/
def Obligations.AccumulatedMessageState : Prop :=
  ∀ (s : State) (ms : List (List Byte)), 8 * ms.flatten.length < 2 ^ 64 →
    s.pending = issued .init :: ms.map (fun m => issued (.update m)) →
    ∃ t, run (ms.length + 1) s = .next t ∧
      t.engine.bitLen.toNat = 8 * ms.flatten.length ∧
      t.engine.blockLen.toNat = ms.flatten.length % 64 ∧
      (∀ i, i < ms.flatten.length % 64 →
        t.engine.block.get i = ms.flatten.getD (64 * (ms.flatten.length / 64) + i) 0) ∧
      t.engine.h = hashCompleteBlocks ms.flatten ∧
      t.engine.status = .active ∧ t.engine.cerr = .ok ∧
      t.pending = [] ∧ t.responses = s.responses ++ List.replicate (ms.length + 1) ⟨.ok, none⟩

/-! ### FINALIZE -/

/-- R121 to R126, on an ACTIVE engine. One-block case, `b <= 55`: the marker byte after the first `b` bytes of the block,
zeros up to index 55, the length field, one compression. Two-block case, `b >= 56`: the marker byte, zeros to the end of
the block, a compression; then 56 zeros, the length field, and the final compression. -/
def Obligations.FinalizePadsAndCompresses : Prop :=
  ∀ s : State, s.engine.status = .active →
    (s.engine.blockLen.toNat ≤ 55 → ∃ t, exec .finalize s = .next t ∧
      t.engine.h = compress s.engine.h
        ((List.range s.engine.blockLen.toNat).map s.engine.block.get ++ [0x80#8] ++
          List.replicate (55 - s.engine.blockLen.toNat) 0x00#8 ++ beBytes64 s.engine.bitLen)) ∧
    (56 ≤ s.engine.blockLen.toNat → s.engine.blockLen.toNat ≤ 63 → ∃ t, exec .finalize s = .next t ∧
      t.engine.h = compress
        (compress s.engine.h
          ((List.range s.engine.blockLen.toNat).map s.engine.block.get ++ [0x80#8] ++
            List.replicate (63 - s.engine.blockLen.toNat) 0x00#8))
        (List.replicate 56 0x00#8 ++ beBytes64 s.engine.bitLen))

/-- R127, with R120, R128 and R129: on an ACTIVE engine FINALIZE responds OK with the 20 digest bytes, each the byte of the
final hash words that R127 names, and those words stay in `h`; the counters are cleared, the status is FINALIZED, and `cerr`
is not written. -/
def Obligations.FinalizeRespondsDigest : Prop :=
  ∀ s : State, s.engine.status = .active → s.engine.blockLen.toNat ≤ 63 →
    ∃ t d, exec .finalize s = .next t ∧ t.responses = s.responses ++ [⟨.ok, some d⟩] ∧ d.length = 20 ∧
      (∀ i, i < 20 → (d.getD i 0).toNat = (t.engine.h.get (i / 4)).toNat / 2 ^ (8 * (3 - i % 4)) % 2 ^ 8) ∧
      d = beBytes32 t.engine.h.h0 ++ beBytes32 t.engine.h.h1 ++ beBytes32 t.engine.h.h2 ++
        beBytes32 t.engine.h.h3 ++ beBytes32 t.engine.h.h4 ∧
      t.engine.blockLen = 0#7 ∧ t.engine.bitLen = 0#64 ∧
      t.engine.status = .finalized ∧ t.engine.cerr = s.engine.cerr ∧ t.pending = s.pending

/-- R128: after a successful FINALIZE every byte of the block is 0x00 (that "clears the working buffer" means this is the
spec's own D20). -/
def Obligations.FinalizeClearsBlock : Prop :=
  ∀ s : State, s.engine.status = .active → s.engine.blockLen.toNat ≤ 63 →
    ∃ t, exec .finalize s = .next t ∧ ∀ a, t.engine.block.get a = 0x00#8

/-! ### Invariants -/

/-- The invariant of the machine (R24 to R27, R65, R128, R141) holds after reset (R32; the reset state is the spec's own D6,
log 5). -/
def Obligations.ResetStateHasInvariant : Prop := State.reset.Inv

/-- R24, R25, R26, R27, R65, R128, R141: every step keeps the invariant. (Its clause that a FINALIZED engine's block is all
zero is the spec's own D20 of R128, and the canonical form of the block is the model's choice, both log 12; that a step with no
event rests is the model's choice, log 2. It covers the second FINALIZE and the empty UPDATE of D7 and D8, logs 7 and 8.) -/
def Obligations.StepKeepsInvariant : Prop :=
  ∀ s t : State, s.Inv → step s = .next t → t.Inv

/-- R26, R41, R64: from a state with the invariant a step never faults: it answers a next state, or refuses a reserved
command. (That it answers one with no event to come is the model's choice, log 2, and that a reset in the middle of a reserved
command is refused is the model's choice, log 4; refusing a reserved command is the spec's own D16, log 9.) -/
def Obligations.InvariantStepNeverFaults : Prop :=
  ∀ s : State, s.Inv →
    (∃ t, step s = .next t) ∨
    (∃ c r rest, (s.pending = .command c :: rest ∨ s.pending = .resetDuring c :: rest) ∧
      decode c = .error r ∧ step s = .refused (.reservedCommand r))

/-- R65, R141: an admitted command gives exactly one response. Bits 7:2 of RESULT are 0, the result is never NULL_INPUT, a
digest is there exactly for a FINALIZE that responds OK and has 20 bytes, and INIT responds OK. -/
def Obligations.EveryAdmittedCommandRespondsOnce : Prop :=
  ∀ (s : State) (c : Command) (i : Instr) (rest : List HostEvent), s.Inv →
    s.pending = .command c :: rest → decode c = .ok i →
    ∃ t r, step s = .next t ∧ t.pending = rest ∧ t.responses = s.responses ++ [r] ∧
      r.resultByte.extractLsb' 2 6 = 0#6 ∧ r.resultByte.extractLsb' 0 2 = r.result.code ∧
      r.result ≠ .nullInput ∧
      (r.digest.isSome ↔ i = .finalize ∧ r.result = .ok) ∧
      (∀ d, r.digest = some d → d.length = 20) ∧
      (i = .init → r.result = .ok)

/-- R146 (the two ways out are the spec's own D5 and D6), R144, R21: an engine that is not ACTIVE becomes ACTIVE again only
by INIT or reset. Until then a CORRUPTED engine stays CORRUPTED with its stored error, and `h` (the final hash words after
a FINALIZE), `block`, `block_len` and `bit_len` keep their values. (It ranges over every command, the second FINALIZE and the
empty UPDATE of D7 and D8 among them; either reading of those two keeps it but for the move to CORRUPTED. That a step with no
event rests is the model's choice, log 2.) -/
def Obligations.OnlyInitAndResetReviveEngine : Prop :=
  ∀ s t : State, s.engine.status ≠ .active → step s = .next t →
    (∃ c rest, s.pending = .command c :: rest ∧ decode c = .ok .init) ∨
    (∃ rest, s.pending = .reset :: rest ∨ ∃ c, s.pending = .resetDuring c :: rest) ∨
    (t.engine.status ≠ .active ∧
      (s.engine.status = .corrupted → t.engine.status = .corrupted ∧ t.engine.cerr = s.engine.cerr) ∧
      t.engine.h = s.engine.h ∧ t.engine.block = s.engine.block ∧
      t.engine.blockLen = s.engine.blockLen ∧ t.engine.bitLen = s.engine.bitLen)

/-- R147, the table (which the spec marks as derived): the status, the stored error and the result code after each command
in each status. Its FINALIZE and empty-UPDATE entries outside ACTIVE are the spec's own D7 and D8, on which it says no claim
about a device should rest; its INIT column is D5 (logs 6, 7, 8). -/
def Obligations.StatusTransitionTable : Prop :=
  ∀ (s t : State) (i : Instr), exec i s = .next t → ∃ code d, t.responses = s.responses ++ [⟨code, d⟩] ∧
    match s.engine.status, i with
    | _, .init => t.engine.status = .active ∧ t.engine.cerr = .ok ∧ code = .ok
    | .active, .update _ =>
      (t.engine.status = .active ∧ t.engine.cerr = s.engine.cerr ∧ code = .ok) ∨
      (t.engine.status = .corrupted ∧ t.engine.cerr = .inputTooLong ∧ code = .inputTooLong)
    | .active, .finalize => t.engine.status = .finalized ∧ t.engine.cerr = s.engine.cerr ∧ code = .ok
    | .finalized, _ => t.engine.status = .corrupted ∧ t.engine.cerr = .stateError ∧ code = .stateError
    | .corrupted, _ => t.engine = s.engine ∧ code = s.engine.cerr

/-- R144, R48 and the source's property S6: no later command changes a response once given, a digest among them; one step
adds at most one. (That a step with no event rests, and that a reset keeps the responses, are the model's choices, logs 2 and
1.) -/
def Obligations.ResponsesOnlyGrow : Prop :=
  ∀ (n : Nat) (s t : State), run n s = .next t →
    s.responses <+: t.responses ∧ t.responses.length ≤ s.responses.length + n

/-! ### What the host cannot see -/

/-- R86, R144 (93_implementation_defined.md U2, U3): of a CORRUPTED engine the host can learn nothing but the stored error.
Two of them that store the same error give the same responses to all that follows, whatever else they hold. (An empty UPDATE
among what follows is the spec's own D8, log 8, and INIT on a CORRUPTED engine its D5, log 6; steps past the last event rest,
the model's choice, log 2.) -/
def Obligations.StoredErrorHidesState : Prop :=
  ∀ s t : State, s.engine.status = .corrupted → t.engine.status = .corrupted →
    s.engine.cerr = t.engine.cerr → s.pending = t.pending → s.responses = t.responses →
    ∀ n, observe (run n s) = observe (run n t)

/-- R147, its last paragraph (which the spec marks as derived, and whose second-FINALIZE and empty-UPDATE answers are its own
D7 and D8, logs 7 and 8; INIT in both statuses is its D5, log 6): a FINALIZED engine and a CORRUPTED one that stores
STATE_ERROR give the same responses to all that follows, so the move between them (90_conflicts.md C3) cannot be observed.
(Steps past the last event rest, the model's choice, log 2.) -/
def Obligations.FinalizedLooksLikeStateError : Prop :=
  ∀ s t : State, s.engine.status = .finalized → t.engine.status = .corrupted → t.engine.cerr = .stateError →
    s.pending = t.pending → s.responses = t.responses →
    ∀ n, observe (run n s) = observe (run n t)

/-- R29 (which the spec marks as derived; U1): the bytes of `block` at and past `block_len` are not observable. Two engines
that differ in them alone give the same responses to all that follows. (Steps past the last event rest, the model's
choice, log 2.) -/
def Obligations.StaleBlockBytesInvisible : Prop :=
  ∀ s t : State, s.engine.AgreeToBlockLen t.engine → s.pending = t.pending → s.responses = t.responses →
    ∀ n, observe (run n s) = observe (run n t)

/-! ### The whole message -/

/-- R131 (which the spec marks as derived), R69: from any state, HASH of a message of at most 2^61 - 1 bytes responds OK,
OK, and OK with its SHA-1 digest. (That INIT is accepted from any status is the spec's own D5, log 6.) -/
def Obligations.HashOfWholeMessage : Prop :=
  ∀ (s : State) (m : List Byte), m.length ≤ 2 ^ 61 - 1 → s.pending = (hashCommand m).map issued →
    ∃ t, run 3 s = .next t ∧ t.pending = [] ∧
      t.responses = s.responses ++ [⟨.ok, none⟩, ⟨.ok, none⟩, ⟨.ok, some (sha1 m)⟩]

/-- R131, its last part: "The same holds for any split of `m` across several UPDATEs". (That INIT is accepted from any status
is the spec's own D5, log 6.) -/
def Obligations.HashOfAnySplit : Prop :=
  ∀ (s : State) (ms : List (List Byte)), ms.flatten.length ≤ 2 ^ 61 - 1 →
    s.pending = issued .init :: (ms.map (fun m => issued (.update m)) ++ [issued .finalize]) →
    ∃ t, run (ms.length + 2) s = .next t ∧ t.pending = [] ∧
      t.responses = s.responses ++ List.replicate (ms.length + 1) ⟨.ok, none⟩ ++ [⟨.ok, some (sha1 ms.flatten)⟩]

/-- R130, R131: the padded message is a whole number of blocks, `floor((n + 8) / 64) + 1` of them, and no smaller number of
zero bytes would do. -/
def Obligations.PaddedMessageFillsBlocks : Prop :=
  ∀ m : List Byte,
    (paddedMessage m).length = 64 * ((m.length + 8) / 64 + 1) ∧
    (m.length + 1 + zeroPadding m.length + 8) % 64 = 0 ∧
    (∀ z, z < zeroPadding m.length → (m.length + 1 + z + 8) % 64 ≠ 0)

/-! ### Several engines -/

/-- R150: a step of engine `k` of a platform is a step of that engine alone, and never changes another engine; and there is
at least one engine (the spec's D18). R150 says this of commands; that it holds of a step that takes a reset (R161) is the
model's choice, log 22, and of one that rests with no event log 2. -/
def Obligations.EnginesAreIndependent : Prop :=
  0 < Config.engineCount ∧
  ∀ (k : Fin Config.engineCount) (p q : Platform), Platform.step k p = .next q →
    step p.engines[k] = .next q.engines[k] ∧
    ∀ j : Fin Config.engineCount, j ≠ k → q.engines[j] = p.engines[j]
end

