-- ==== Sys2Proof/Laws/Memory.lean ====
section
/-! SUPPORT. The laws of the block buffer: what a read gives after each write, and that every write keeps the canonical
form. The read laws hold of every list of cells, in the canonical form or not. -/

namespace Sys2Proof.Machine

@[simp] theorem Memory.get_zeros (a : Nat) : Memory.zeros.get a = 0x00#8 := rfl

theorem Memory.get_cons (b : Nat) (v : Byte) (m : Memory) (a : Nat) :
    Memory.get ((b, v) :: m) a = if a = b then v else Memory.get m a := rfl

theorem Memory.get_clear (m : Memory) (a c : Nat) :
    (m.clear a).get c = if c = a then 0x00#8 else m.get c := by
  induction m with
  | nil => simp [Memory.clear, Memory.get]
  | cons x rest ih =>
    obtain ⟨b, w⟩ := x
    by_cases hba : b = a
    · have : Memory.clear ((b, w) :: rest) a = Memory.clear rest a := by simp [Memory.clear, hba]
      rw [this, ih, Memory.get_cons]
      split <;> simp_all
    · have : Memory.clear ((b, w) :: rest) a = (b, w) :: Memory.clear rest a := by simp [Memory.clear, hba]
      rw [this, Memory.get_cons, Memory.get_cons, ih]
      split <;> simp_all

theorem Memory.get_insert (m : Memory) (a c : Nat) (v : Byte) :
    (m.insert a v).get c = if c = a then v else m.get c := by
  induction m with
  | nil => simp [Memory.insert, Memory.get]
  | cons x rest ih =>
    obtain ⟨b, w⟩ := x
    simp only [Memory.insert]
    split
    · simp [Memory.get_cons]
    · split
      · subst_vars; simp only [Memory.get_cons]; split <;> rfl
      · simp only [Memory.get_cons, ih]
        split <;> split <;> simp_all

/-- Read after write. -/
theorem Memory.get_put (m : Memory) (a c : Nat) (v : Byte) :
    (m.put a v).get c = if c = a then v else m.get c := by
  unfold Memory.put
  split
  · rw [Memory.get_clear]; simp_all
  · exact Memory.get_insert m a c v

theorem Memory.get_putBytes (m : Memory) (a c : Nat) (bytes : List Byte) :
    (m.putBytes a bytes).get c =
      if a ≤ c ∧ c < a + bytes.length then bytes.getD (c - a) 0x00#8 else m.get c := by
  induction bytes generalizing m a with
  | nil => simp [Memory.putBytes]
  | cons v rest ih =>
    simp only [Memory.putBytes, ih, Memory.get_put, List.length_cons]
    rcases Nat.lt_trichotomy c a with h | h | h
    · rw [if_neg (by omega), if_neg (by omega), if_neg (by omega)]
    · subst h; simp
    · obtain ⟨k, rfl⟩ : ∃ k, c = a + 1 + k := ⟨c - a - 1, by omega⟩
      by_cases hk : k < rest.length
      · rw [if_pos (by omega), if_pos (by omega), show a + 1 + k - (a + 1) = k by omega,
          show a + 1 + k - a = k + 1 by omega, List.getD_cons_succ]
      · rw [if_neg (by omega), if_neg (by omega), if_neg (by omega)]

theorem Memory.get_putZeros (m : Memory) (a b c : Nat) :
    (m.putZeros a b).get c = if a ≤ c ∧ c < b then 0x00#8 else m.get c := by
  rw [Memory.putZeros, Memory.get_putBytes, List.length_replicate]
  by_cases h : a ≤ c ∧ c < b
  · rw [if_pos (by omega), if_pos h]
    simp [List.getD_eq_getElem?_getD, show c - a < b - a by omega]
  · rw [if_neg (by omega), if_neg h]

/-- All that a store can do. -/
theorem Memory.store_eq_some {m m' : Memory} {a : Nat} {v : Byte} :
    m.store a v = some m' ↔ a < 64 ∧ m' = m.put a v := by
  unfold Memory.store blockSize
  split <;> simp_all [eq_comm]

theorem Memory.store_of_lt (m : Memory) {a : Nat} (v : Byte) (h : a < 64) : m.store a v = some (m.put a v) :=
  Memory.store_eq_some.2 ⟨h, rfl⟩

theorem Memory.store_eq_none {m : Memory} {a : Nat} {v : Byte} : m.store a v = none ↔ 64 ≤ a := by
  unfold Memory.store blockSize
  split <;> simp_all

/-! ### The 64 bytes -/

@[simp] theorem Memory.bytes_length (m : Memory) : m.bytes.length = 64 := by simp [Memory.bytes, blockSize]

theorem Memory.bytes_getElem (m : Memory) (i : Nat) (h : i < m.bytes.length) : m.bytes[i] = m.get i := by
  simp [Memory.bytes]

theorem Memory.bytes_getD (m : Memory) {i : Nat} (h : i < 64) (d : Byte) : m.bytes.getD i d = m.get i := by
  rw [List.getD_eq_getElem _ _ (by simpa using h)]
  exact Memory.bytes_getElem m i _

/-- Two buffers whose 64 bytes read the same have the same bytes. -/
theorem Memory.bytes_congr {m n : Memory} (h : ∀ a, a < 64 → m.get a = n.get a) : m.bytes = n.bytes := by
  unfold Memory.bytes blockSize
  exact List.map_congr_left fun a ha => h a (List.mem_range.1 ha)

/-- A buffer whose 64 bytes read as a list of 64 bytes has that list as its bytes. -/
theorem Memory.bytes_eq {m : Memory} {bytes : List Byte} (hl : bytes.length = 64)
    (h : ∀ a, a < 64 → m.get a = bytes.getD a 0x00#8) : m.bytes = bytes := by
  refine List.ext_getElem (by simp [hl]) fun i h1 h2 => ?_
  rw [Memory.bytes_getElem, h i (by omega), List.getD_eq_getElem _ _ h2]

/-! ### The canonical form -/

/-- The canonical form as a proposition. -/
theorem Memory.wf_iff (m : Memory) :
    m.wf = true ↔ m.Pairwise (fun c d => c.1 < d.1) ∧ ∀ c ∈ m, c.1 < 64 ∧ c.2 ≠ 0x00#8 := by
  simp only [Memory.wf, List.all_eq_true, Bool.and_eq_true, decide_eq_true_eq, bne_iff_ne]
  exact Iff.rfl

theorem Memory.wf_zeros : Memory.zeros.wf = true := by decide

theorem Memory.wf_clear {m : Memory} (h : m.wf = true) (a : Nat) : (m.clear a).wf = true := by
  rw [Memory.wf_iff] at *
  exact ⟨h.1.filter _, fun c hc => h.2 c (List.mem_filter.1 hc).1⟩

theorem Memory.mem_insert {m : Memory} {a : Nat} {v : Byte} {c : Host.Cell} (h : c ∈ m.insert a v) :
    c = (a, v) ∨ c ∈ m := by
  induction m with
  | nil => exact .inl (by simpa [Memory.insert] using h)
  | cons x rest ih =>
    obtain ⟨b, w⟩ := x
    simp only [Memory.insert] at h
    split at h
    · simpa using h
    · split at h
      · rcases List.mem_cons.1 h with h | h
        · exact .inl h
        · exact .inr (List.mem_cons_of_mem _ h)
      · rcases List.mem_cons.1 h with h | h
        · exact .inr (by simp [h])
        · exact (ih h).imp id (List.mem_cons_of_mem _)

theorem Memory.pairwise_insert {m : Memory} (h : m.Pairwise fun c d => c.1 < d.1) (a : Nat) (v : Byte) :
    (m.insert a v).Pairwise fun c d => c.1 < d.1 := by
  induction m with
  | nil => simp [Memory.insert]
  | cons x rest ih =>
    obtain ⟨b, w⟩ := x
    obtain ⟨hx, hr⟩ := List.pairwise_cons.1 h
    simp only [Memory.insert]
    split
    · refine List.pairwise_cons.2 ⟨fun c hc => ?_, h⟩
      rcases List.mem_cons.1 hc with rfl | hc
      · assumption
      · exact Nat.lt_trans ‹a < b› (hx c hc)
    · split
      · subst_vars; exact List.pairwise_cons.2 ⟨hx, hr⟩
      · refine List.pairwise_cons.2 ⟨fun c hc => ?_, ih hr⟩
        rcases Memory.mem_insert hc with rfl | hc
        · show b < a; omega
        · exact hx c hc

theorem Memory.wf_insert {m : Memory} (h : m.wf = true) {a : Nat} (ha : a < 64) {v : Byte} (hv : v ≠ 0x00#8) :
    (m.insert a v).wf = true := by
  rw [Memory.wf_iff] at *
  refine ⟨Memory.pairwise_insert h.1 a v, fun c hc => ?_⟩
  rcases Memory.mem_insert hc with rfl | hc
  · exact ⟨ha, hv⟩
  · exact h.2 c hc

/-- A write inside the buffer keeps the canonical form. -/
theorem Memory.wf_put {m : Memory} (h : m.wf = true) {a : Nat} (ha : a < 64) (v : Byte) : (m.put a v).wf = true := by
  unfold Memory.put
  split
  · exact Memory.wf_clear h a
  · exact Memory.wf_insert h ha ‹_›

theorem Memory.wf_putBytes {m : Memory} (h : m.wf = true) {a : Nat} {bytes : List Byte}
    (ha : a + bytes.length ≤ 64) : (m.putBytes a bytes).wf = true := by
  induction bytes generalizing m a with
  | nil => exact h
  | cons v rest ih =>
    simp only [List.length_cons] at ha
    exact ih (Memory.wf_put h (by omega) v) (by omega)

theorem Memory.wf_putZeros {m : Memory} (h : m.wf = true) {a b : Nat} (ha : a ≤ 64) (hb : b ≤ 64) :
    (m.putZeros a b).wf = true :=
  Memory.wf_putBytes h (by simp; omega)

theorem Memory.wf_store {m m' : Memory} (h : m.wf = true) {a : Nat} {v : Byte} (hs : m.store a v = some m') :
    m'.wf = true := by
  obtain ⟨ha, rfl⟩ := Memory.store_eq_some.1 hs
  exact Memory.wf_put h ha v

/-- An address below all those listed reads as 0x00. -/
theorem Memory.get_of_lt_all {m : Memory} {a : Nat} (h : ∀ c ∈ m, a < c.1) : m.get a = 0x00#8 := by
  induction m with
  | nil => rfl
  | cons x rest ih =>
    obtain ⟨b, w⟩ := x
    rw [Memory.get_cons, if_neg (by have := h (b, w) (by simp); simp at this; omega)]
    exact ih fun c hc => h c (List.mem_cons_of_mem _ hc)

/-- Equal memories are equal data: two buffers in canonical form that read the same are the same list. -/
theorem Memory.ext_of_wf {m n : Memory} (hm : m.wf = true) (hn : n.wf = true)
    (h : ∀ a, m.get a = n.get a) : m = n := by
  rw [Memory.wf_iff] at hm hn
  obtain ⟨pm, vm⟩ := hm
  obtain ⟨pn, vn⟩ := hn
  induction m generalizing n with
  | nil =>
    cases n with
    | nil => rfl
    | cons y ns =>
      have := h y.1
      rw [show (y :: ns : Memory) = (y.1, y.2) :: ns from rfl, Memory.get_cons, if_pos rfl] at this
      exact absurd this.symm (vn y (by simp)).2
  | cons x ms ih =>
    cases n with
    | nil =>
      have := h x.1
      rw [show (x :: ms : Memory) = (x.1, x.2) :: ms from rfl, Memory.get_cons, if_pos rfl] at this
      exact absurd this (vm x (by simp)).2
    | cons y ns =>
      obtain ⟨a, v⟩ := x
      obtain ⟨b, w⟩ := y
      obtain ⟨qm, rm⟩ := List.pairwise_cons.1 pm
      obtain ⟨qn, rn⟩ := List.pairwise_cons.1 pn
      have hv := (vm (a, v) (by simp)).2
      have hw := (vn (b, w) (by simp)).2
      have hab : a = b := by
        rcases Nat.lt_trichotomy a b with hlt | heq | hgt
        · have := h a
          rw [Memory.get_cons, if_pos rfl, Memory.get_of_lt_all (m := (b, w) :: ns)] at this
          · exact absurd this hv
          · intro c hc
            rcases List.mem_cons.1 hc with rfl | hc
            · exact hlt
            · exact Nat.lt_trans hlt (qn c hc)
        · exact heq
        · have := h b
          rw [Memory.get_cons (b := b), if_pos rfl, Memory.get_of_lt_all (m := (a, v) :: ms)] at this
          · exact absurd this.symm hw
          · intro c hc
            rcases List.mem_cons.1 hc with rfl | hc
            · exact hgt
            · exact Nat.lt_trans hgt (qm c hc)
      subst hab
      have hvw : v = w := by simpa [Memory.get_cons] using h a
      subst hvw
      congr 1
      refine ih (fun c => ?_) rm (fun c hc => vm c (List.mem_cons_of_mem _ hc)) rn
        (fun c hc => vn c (List.mem_cons_of_mem _ hc))
      by_cases hc : c = a
      · subst hc; rw [Memory.get_of_lt_all qm, Memory.get_of_lt_all qn]
      · simpa [Memory.get_cons, hc] using h c

end Sys2Proof.Machine
end

