-- ==== Sys2Proof/Laws/State.lean ====
section
/-! SUPPORT. One lemma per field per update of the state. -/

namespace Sys2Proof.Machine

/-! ### withEngine -/
@[simp] theorem State.withEngine_engine (s : State) (e : DigestState) : (s.withEngine e).engine = e := rfl
@[simp] theorem State.withEngine_pending (s : State) (e : DigestState) : (s.withEngine e).pending = s.pending := rfl
@[simp] theorem State.withEngine_responses (s : State) (e : DigestState) :
    (s.withEngine e).responses = s.responses := rfl

/-! ### withPending -/
@[simp] theorem State.withPending_engine (s : State) (p : List HostEvent) : (s.withPending p).engine = s.engine := rfl
@[simp] theorem State.withPending_pending (s : State) (p : List HostEvent) : (s.withPending p).pending = p := rfl
@[simp] theorem State.withPending_responses (s : State) (p : List HostEvent) :
    (s.withPending p).responses = s.responses := rfl

/-! ### respond -/
@[simp] theorem State.respond_engine (s : State) (c : ResultCode) (d : Option (List Byte)) :
    (s.respond c d).engine = s.engine := rfl
@[simp] theorem State.respond_pending (s : State) (c : ResultCode) (d : Option (List Byte)) :
    (s.respond c d).pending = s.pending := rfl
@[simp] theorem State.respond_responses (s : State) (c : ResultCode) (d : Option (List Byte)) :
    (s.respond c d).responses = s.responses ++ [⟨c, d⟩] := rfl

/-! ### corrupt and fail -/
@[simp] theorem DigestState.corrupt_h (e : DigestState) (c : ResultCode) : (e.corrupt c).h = e.h := rfl
@[simp] theorem DigestState.corrupt_block (e : DigestState) (c : ResultCode) : (e.corrupt c).block = e.block := rfl
@[simp] theorem DigestState.corrupt_blockLen (e : DigestState) (c : ResultCode) :
    (e.corrupt c).blockLen = e.blockLen := rfl
@[simp] theorem DigestState.corrupt_bitLen (e : DigestState) (c : ResultCode) : (e.corrupt c).bitLen = e.bitLen := rfl
@[simp] theorem DigestState.corrupt_status (e : DigestState) (c : ResultCode) :
    (e.corrupt c).status = .corrupted := rfl
@[simp] theorem DigestState.corrupt_cerr (e : DigestState) (c : ResultCode) : (e.corrupt c).cerr = c := rfl

@[simp] theorem State.fail_engine (s : State) (c : ResultCode) : (s.fail c).engine = s.engine.corrupt c := rfl
@[simp] theorem State.fail_pending (s : State) (c : ResultCode) : (s.fail c).pending = s.pending := rfl
@[simp] theorem State.fail_responses (s : State) (c : ResultCode) :
    (s.fail c).responses = s.responses ++ [⟨c, none⟩] := rfl

/-! ### cleared -/
@[simp] theorem DigestState.cleared_h (e : DigestState) (h : HashWords) : (e.cleared h).h = h := rfl
@[simp] theorem DigestState.cleared_block (e : DigestState) (h : HashWords) : (e.cleared h).block = Memory.zeros := rfl
@[simp] theorem DigestState.cleared_blockLen (e : DigestState) (h : HashWords) : (e.cleared h).blockLen = 0#7 := rfl
@[simp] theorem DigestState.cleared_bitLen (e : DigestState) (h : HashWords) : (e.cleared h).bitLen = 0#64 := rfl
@[simp] theorem DigestState.cleared_status (e : DigestState) (h : HashWords) : (e.cleared h).status = .finalized := rfl
@[simp] theorem DigestState.cleared_cerr (e : DigestState) (h : HashWords) : (e.cleared h).cerr = e.cerr := rfl

/-! ### reset -/
@[simp] theorem hardwareReset_engine (s : State) : (hardwareReset s).engine = DigestState.reset := rfl
@[simp] theorem hardwareReset_pending (s : State) : (hardwareReset s).pending = s.pending := rfl
@[simp] theorem hardwareReset_responses (s : State) : (hardwareReset s).responses = s.responses := rfl

/-- What INIT writes is what reset leaves (R160). -/
theorem DigestState.fresh_eq_reset : DigestState.fresh = DigestState.reset := rfl

end Sys2Proof.Machine
end

