-- ==== Sys2Proof/Laws/Accumulator.lean ====
section
/-! SUPPORT. What ABSORB, the absorption of a payload and the status check can do. -/

namespace Sys2Proof.Machine

/-! ### The overflow flag -/

theorem bitLenOverflows_iff (b : DoubleWord) : bitLenOverflows b = true ↔ 2 ^ 64 ≤ b.toNat + 8 := by
  simp [bitLenOverflows]

theorem bitLenOverflows_of_lt {b : DoubleWord} (h : b.toNat + 8 < 2 ^ 64) : bitLenOverflows b = false := by
  simp only [bitLenOverflows, decide_eq_false_iff_not]; omega

theorem toNat_add_eight {b : DoubleWord} (h : b.toNat + 8 < 2 ^ 64) : (b + 8#64).toNat = b.toNat + 8 := by
  rw [BitVec.toNat_add, Nat.mod_eq_of_lt] <;> simp_all

theorem toNat_add_one {b : BitVec 7} (h : b.toNat < 64) : (b + 1#7).toNat = b.toNat + 1 := by
  rw [BitVec.toNat_add, Nat.mod_eq_of_lt] <;> (simp; try omega)

theorem blockLen_eq_full_iff (b : BitVec 7) : b = 64#7 ↔ b.toNat = 64 := by
  rw [← BitVec.toNat_inj]; simp

/-! ### drain -/

@[simp] theorem DigestState.drain_block (e : DigestState) : e.drain.block = e.block := by
  unfold DigestState.drain; split <;> rfl
@[simp] theorem DigestState.drain_bitLen (e : DigestState) : e.drain.bitLen = e.bitLen := by
  unfold DigestState.drain; split <;> rfl
@[simp] theorem DigestState.drain_status (e : DigestState) : e.drain.status = e.status := by
  unfold DigestState.drain; split <;> rfl
@[simp] theorem DigestState.drain_cerr (e : DigestState) : e.drain.cerr = e.cerr := by
  unfold DigestState.drain; split <;> rfl

theorem DigestState.drain_full {e : DigestState} (h : e.blockLen = 64#7) :
    e.drain = { e with h := compress e.h e.block.bytes, blockLen := 0#7 } := if_pos h

theorem DigestState.drain_not_full {e : DigestState} (h : e.blockLen ≠ 64#7) : e.drain = e := if_neg h

/-! ### ABSORB -/

/-- The engine after one byte is absorbed. -/
theorem absorb_done {x : Byte} {e : DigestState} (ho : e.bitLen.toNat + 8 < 2 ^ 64) (hb : e.blockLen.toNat < 64) :
    absorb x e = .done (DigestState.drain { e with
      block := e.block.put e.blockLen.toNat x, blockLen := e.blockLen + 1#7, bitLen := e.bitLen + 8#64 }) := by
  simp [absorb, bitLenOverflows_of_lt ho, Memory.store_of_lt _ _ hb]

theorem absorb_overflow {x : Byte} {e : DigestState} (ho : 2 ^ 64 ≤ e.bitLen.toNat + 8) :
    absorb x e = .overflow e := by
  simp [absorb, (bitLenOverflows_iff _).2 ho]

theorem absorb_badIndex {x : Byte} {e : DigestState} (ho : e.bitLen.toNat + 8 < 2 ^ 64)
    (hb : 64 ≤ e.blockLen.toNat) : absorb x e = .badIndex := by
  simp [absorb, bitLenOverflows_of_lt ho, Memory.store_eq_none.2 hb]

/-- All that ABSORB can do: one of three, each with its condition. -/
theorem absorb_cases (x : Byte) (e : DigestState) :
    (2 ^ 64 ≤ e.bitLen.toNat + 8 ∧ absorb x e = .overflow e) ∨
    (e.bitLen.toNat + 8 < 2 ^ 64 ∧ 64 ≤ e.blockLen.toNat ∧ absorb x e = .badIndex) ∨
    (e.bitLen.toNat + 8 < 2 ^ 64 ∧ e.blockLen.toNat < 64 ∧ absorb x e = .done (DigestState.drain { e with
      block := e.block.put e.blockLen.toNat x, blockLen := e.blockLen + 1#7, bitLen := e.bitLen + 8#64 })) := by
  by_cases ho : 2 ^ 64 ≤ e.bitLen.toNat + 8
  · exact .inl ⟨ho, absorb_overflow ho⟩
  · by_cases hb : 64 ≤ e.blockLen.toNat
    · exact .inr (.inl ⟨by omega, hb, absorb_badIndex (by omega) hb⟩)
    · exact .inr (.inr ⟨by omega, by omega, absorb_done (by omega) (by omega)⟩)

/-- Everything that absorbing one byte does, field by field. -/
theorem absorb_done_fields {x : Byte} {e e' : DigestState} (h : absorb x e = .done e') :
    e.bitLen.toNat + 8 < 2 ^ 64 ∧ e.blockLen.toNat < 64 ∧
    e'.block = e.block.put e.blockLen.toNat x ∧
    e'.blockLen.toNat = (e.blockLen.toNat + 1) % 64 ∧
    e'.bitLen.toNat = e.bitLen.toNat + 8 ∧
    e'.status = e.status ∧ e'.cerr = e.cerr ∧
    e'.h = if e.blockLen.toNat = 63 then compress e.h (e.block.put 63 x).bytes else e.h := by
  rcases absorb_cases x e with ⟨_, h'⟩ | ⟨_, _, h'⟩ | ⟨ho, hb, h'⟩
  · simp [h'] at h
  · simp [h'] at h
  · rw [h', Absorbed.done.injEq] at h
    subst h
    refine ⟨ho, hb, by simp, ?_, by simp [toNat_add_eight ho], by simp, by simp, ?_⟩
    · by_cases hf : e.blockLen.toNat = 63
      · rw [DigestState.drain_full ((blockLen_eq_full_iff _).2 (by simp [toNat_add_one hb, hf]))]
        simp [hf]
      · rw [DigestState.drain_not_full (by rw [Ne, blockLen_eq_full_iff, toNat_add_one hb]; omega)]
        rw [toNat_add_one hb, Nat.mod_eq_of_lt (by omega)]
    · by_cases hf : e.blockLen.toNat = 63
      · rw [DigestState.drain_full ((blockLen_eq_full_iff _).2 (by simp [toNat_add_one hb, hf])), if_pos hf]
        simp [hf]
      · rw [DigestState.drain_not_full (by rw [Ne, blockLen_eq_full_iff, toNat_add_one hb]; omega), if_neg hf]

/-! ### The absorption of a payload -/

@[simp] theorem absorbAll_nil (e : DigestState) : absorbAll [] e = .done e := rfl

theorem absorbAll_cons_done {x : Byte} {xs : List Byte} {e e' : DigestState} (h : absorb x e = .done e') :
    absorbAll (x :: xs) e = absorbAll xs e' := by simp [absorbAll, h]

theorem absorbAll_cons_overflow {x : Byte} {xs : List Byte} {e e' : DigestState} (h : absorb x e = .overflow e') :
    absorbAll (x :: xs) e = .overflow e' := by simp [absorbAll, h]

/-- A payload in two parts: the second is absorbed where the first left off. -/
theorem absorbAll_append {xs ys : List Byte} {e e' : DigestState} (h : absorbAll xs e = .done e') :
    absorbAll (xs ++ ys) e = absorbAll ys e' := by
  induction xs generalizing e with
  | nil => simp at h; simp [h]
  | cons x xs ih =>
    simp only [absorbAll, List.cons_append] at h ⊢
    cases hx : absorb x e with
    | done e1 => simp only [hx] at h; exact ih h
    | overflow e1 => simp [hx] at h
    | badIndex => simp [hx] at h

/-- What absorbing keeps or moves, whichever way it ends short of a bad index: `P` holds of the engine left if it holds at
the start and ABSORB of one byte keeps it. -/
theorem absorbAll_induction {P : DigestState → Prop}
    (hP : ∀ x e e', P e → absorb x e = .done e' → P e') {data : List Byte} {e : DigestState} (he : P e) :
    (∀ e', absorbAll data e = .done e' → P e') ∧ (∀ e', absorbAll data e = .overflow e' → P e') := by
  induction data generalizing e with
  | nil => exact ⟨fun e' h => by simp at h; exact h ▸ he, fun e' h => by simp at h⟩
  | cons x xs ih =>
    rcases absorb_cases x e with ⟨_, h⟩ | ⟨_, _, h⟩ | ⟨_, _, h⟩
    · simp only [absorbAll, h]
      exact ⟨fun e' h' => by simp at h', fun e' h' => by simp at h'; exact h' ▸ he⟩
    · simp [absorbAll, h]
    · rw [absorbAll_cons_done h]
      exact ih (hP x e _ he h)

/-- Where `block_len` is an index of the block, no byte of a payload meets a bad one. -/
theorem absorbAll_ne_badIndex {data : List Byte} {e : DigestState} (h : e.blockLen.toNat < 64) :
    absorbAll data e ≠ .badIndex := by
  induction data generalizing e with
  | nil => simp
  | cons x xs ih =>
    rcases absorb_cases x e with ⟨_, h'⟩ | ⟨_, hb, _⟩ | ⟨_, _, h'⟩
    · simp [absorbAll, h']
    · omega
    · rw [absorbAll_cons_done h']
      exact ih (by have := absorb_done_fields h'; omega)

/-! ### The status check -/

theorem checkStatus_active {s : State} (h : s.engine.status = .active)
    (work : Host.Outcome State Fault Refusal) : checkStatus s work = work := by simp [checkStatus, h]

theorem checkStatus_finalized {s : State} (h : s.engine.status = .finalized)
    (work : Host.Outcome State Fault Refusal) : checkStatus s work = .next (s.fail .stateError) := by
  simp [checkStatus, h]

theorem checkStatus_corrupted {s : State} (h : s.engine.status = .corrupted)
    (work : Host.Outcome State Fault Refusal) :
    checkStatus s work = .next (s.respond s.engine.cerr none) := by simp [checkStatus, h]

/-- All that UPDATE can do when it answers a next state. -/
theorem execUpdate_next {data : List Byte} {s t : State} (h : execUpdate data s = .next t) :
    (s.engine.status = .corrupted ∧ t = s.respond s.engine.cerr none) ∨
    (s.engine.status = .finalized ∧ t = s.fail .stateError) ∨
    (s.engine.status = .active ∧ ∃ e, absorbAll data s.engine = .done e ∧ t = (s.withEngine e).respond .ok none) ∨
    (s.engine.status = .active ∧ ∃ e, absorbAll data s.engine = .overflow e ∧
      t = (s.withEngine e).fail .inputTooLong) := by
  unfold execUpdate at h
  cases hs : s.engine.status with
  | corrupted => rw [checkStatus_corrupted hs, Host.Outcome.next.injEq] at h; exact .inl ⟨rfl, h.symm⟩
  | finalized => rw [checkStatus_finalized hs, Host.Outcome.next.injEq] at h; exact .inr (.inl ⟨rfl, h.symm⟩)
  | active =>
    rw [checkStatus_active hs] at h
    cases ha : absorbAll data s.engine with
    | done e => simp only [ha, finishUpdate, Host.Outcome.next.injEq] at h; exact .inr (.inr (.inl ⟨rfl, e, rfl, h.symm⟩))
    | overflow e =>
      simp only [ha, finishUpdate, Host.Outcome.next.injEq] at h; exact .inr (.inr (.inr ⟨rfl, e, rfl, h.symm⟩))
    | badIndex => simp [ha, finishUpdate] at h

/-- UPDATE is never refused. -/
theorem execUpdate_not_refused (data : List Byte) (s : State) (r : Refusal) : execUpdate data s ≠ .refused r := by
  unfold execUpdate checkStatus finishUpdate
  split <;> (try split) <;> simp

end Sys2Proof.Machine
end

