-- ==== Sys2Proof/Laws/Compress.lean ====
section
/-! SUPPORT. Lengths and elements of the byte and word lists that the compression and the digest are made of. -/

namespace Sys2Proof.Machine

@[simp] theorem beBytes32_length (v : Word) : (beBytes32 v).length = 4 := by simp [beBytes32]
@[simp] theorem beBytes64_length (v : DoubleWord) : (beBytes64 v).length = 8 := by simp [beBytes64]
@[simp] theorem project_length (h : HashWords) : (project h).length = 20 := by simp [project]

theorem beBytes64_getElem (v : DoubleWord) (j : Nat) (hj : j < (beBytes64 v).length) :
    (beBytes64 v)[j] = v.extractLsb' (56 - 8 * j) 8 := by simp [beBytes64]

theorem project_getElem (h : HashWords) (i : Nat) (hi : i < (project h).length) :
    (project h)[i] = (h.get (i / 4)).extractLsb' (8 * (3 - i % 4)) 8 := by simp [project]

/-- Big-endian bytes of a word, put together again, are the word. -/
theorem be32_beBytes32 (v : Word) :
    be32 ((beBytes32 v).getD 0 0) ((beBytes32 v).getD 1 0) ((beBytes32 v).getD 2 0) ((beBytes32 v).getD 3 0) = v := by
  simp only [beBytes32, be32, List.range, List.range.loop, List.map, List.getD_cons_zero, List.getD_cons_succ]
  ext i hi
  simp only [BitVec.getElem_append, BitVec.getElem_extractLsb']
  split
  · simp [BitVec.getLsbD_eq_getElem hi]
  · split
    · rw [show 24 - 8 * 2 + (i - 8) = i by omega]; exact BitVec.getLsbD_eq_getElem hi
    · split
      · rw [show 24 - 8 * 1 + (i - 8 - 8) = i by omega]; exact BitVec.getLsbD_eq_getElem hi
      · rw [show 24 - 8 * 0 + (i - 8 - 8 - 8) = i by omega]; exact BitVec.getLsbD_eq_getElem hi

@[simp] theorem firstScheduleWords_length (bytes : List Byte) : (firstScheduleWords bytes).length = 16 := by
  simp [firstScheduleWords]

@[simp] theorem extendSchedule_length (n : Nat) (ws : List Word) :
    (extendSchedule n ws).length = ws.length + n := by
  induction n generalizing ws with
  | zero => rfl
  | succ n ih => simp only [extendSchedule, ih, List.length_cons]; omega

/-- Extending the schedule leaves the words there in their place, under the new ones. -/
theorem extendSchedule_suffix (n : Nat) (ws : List Word) : ws <:+ extendSchedule n ws := by
  induction n generalizing ws with
  | zero => exact List.suffix_refl ws
  | succ n ih => exact (List.suffix_cons _ _).trans (ih _)

/-- One more word extends the extended schedule. -/
theorem extendSchedule_succ (n : Nat) (ws : List Word) :
    extendSchedule (n + 1) ws = nextScheduleWord (extendSchedule n ws) :: extendSchedule n ws := by
  induction n generalizing ws with
  | zero => rfl
  | succ n ih => rw [extendSchedule, ih]; rfl

/-- The k-th newest word of an extended schedule comes from the words under it. -/
theorem extendSchedule_getD {n k : Nat} (ws : List Word) (hk : k < n) :
    (extendSchedule n ws).getD k 0 = nextScheduleWord (extendSchedule (n - 1 - k) ws) := by
  induction k generalizing n with
  | zero =>
    obtain ⟨m, rfl⟩ : ∃ m, n = m + 1 := ⟨n - 1, by omega⟩
    rw [extendSchedule_succ]; rfl
  | succ k ih =>
    obtain ⟨m, rfl⟩ : ∃ m, n = m + 1 := ⟨n - 1, by omega⟩
    rw [extendSchedule_succ, List.getD_cons_succ, ih (by omega)]
    congr 2; omega

/-- Without its newest words an extended schedule is one extended less. -/
theorem extendSchedule_drop {n k : Nat} (ws : List Word) (hk : k ≤ n) :
    (extendSchedule n ws).drop k = extendSchedule (n - k) ws := by
  induction k generalizing n with
  | zero => rfl
  | succ k ih =>
    obtain ⟨m, rfl⟩ : ∃ m, n = m + 1 := ⟨n - 1, by omega⟩
    rw [extendSchedule_succ, List.drop_succ_cons, ih (by omega)]
    congr 1; omega

/-- Rounds over a schedule in two parts. -/
theorem shaRounds_append (t : Nat) (us ws : List Word) (k : Working) :
    shaRounds t (us ++ ws) k = shaRounds (t + us.length) ws (shaRounds t us k) := by
  induction us generalizing t k with
  | nil => rfl
  | cons u us ih => simp only [List.cons_append, shaRounds, ih, List.length_cons]; congr 1; omega

/-- Steps of the pipeline in two parts. -/
theorem RoundPipe.steps_succ (n : Nat) (p : RoundPipe) : RoundPipe.steps (n + 1) p = (RoundPipe.steps n p).step := by
  induction n generalizing p with
  | zero => rfl
  | succ n ih => rw [RoundPipe.steps, ih]; rfl

@[simp] theorem RoundPipe.steps_t (n : Nat) (p : RoundPipe) : (RoundPipe.steps n p).t = p.t + n := by
  induction n generalizing p with
  | zero => rfl
  | succ n ih => rw [RoundPipe.steps, ih]; simp only [RoundPipe.step]; omega

end Sys2Proof.Machine
end

