-- ==== Sys2Proof/Laws/Finalize.lean ====
section
/-! SUPPORT. What FINALIZE can do, and what the padded block reads as. -/

namespace Sys2Proof.Machine

theorem fitsOneBlock_iff (b : Nat) : fitsOneBlock b = true ↔ b ≤ 55 := by simp [fitsOneBlock]

theorem padToLength_one {h : HashWords} {m : Memory} {b : Nat} (hb : b ≤ 55) :
    padToLength h m b = (h, m.putZeros (b + 1) 56) := by
  simp [padToLength, (fitsOneBlock_iff b).2 hb, lengthFieldAt]

theorem padToLength_two {h : HashWords} {m : Memory} {b : Nat} (hb : 56 ≤ b) :
    padToLength h m b =
      (compress h (m.putZeros (b + 1) 64).bytes, (m.putZeros (b + 1) 64).putZeros 0 56) := by
  have : fitsOneBlock b = false := by simp only [fitsOneBlock, decide_eq_false_iff_not]; omega
  simp [padToLength, this, lengthFieldAt, blockSize]

theorem get_putLength (m : Memory) (l : DoubleWord) (a : Nat) :
    (putLength m l).get a = if 56 ≤ a ∧ a < 64 then (beBytes64 l).getD (a - 56) 0x00#8 else m.get a := by
  simp [putLength, lengthFieldAt, Memory.get_putBytes]

/-- FINALIZE on an ACTIVE engine whose `block_len` is an index of the block. The final hash words come as a variable with an
equation: a proof that keeps them so never makes the kernel compare a state with one that holds 80 rounds unfolded. -/
theorem execFinalize_active {s : State} (hs : s.engine.status = .active) (hb : s.engine.blockLen.toNat < 64) :
    ∃ hw, hw = finalHash s.engine (s.engine.block.put s.engine.blockLen.toNat padMarker) ∧
      execFinalize s = .next ((s.withEngine (s.engine.cleared hw)).respond .ok (some (project hw))) := by
  refine ⟨_, rfl, ?_⟩
  rw [execFinalize, checkStatus_active hs, Memory.store_of_lt _ _ hb]; rfl

/-- All that FINALIZE can do when it answers a next state. -/
theorem execFinalize_next {s t : State} (h : execFinalize s = .next t) :
    (s.engine.status = .corrupted ∧ t = s.respond s.engine.cerr none) ∨
    (s.engine.status = .finalized ∧ t = s.fail .stateError) ∨
    (s.engine.status = .active ∧ s.engine.blockLen.toNat < 64 ∧ ∃ hw,
      hw = finalHash s.engine (s.engine.block.put s.engine.blockLen.toNat padMarker) ∧
      t = (s.withEngine (s.engine.cleared hw)).respond .ok (some (project hw))) := by
  unfold execFinalize at h
  cases hs : s.engine.status with
  | corrupted => rw [checkStatus_corrupted hs, Host.Outcome.next.injEq] at h; exact .inl ⟨rfl, h.symm⟩
  | finalized => rw [checkStatus_finalized hs, Host.Outcome.next.injEq] at h; exact .inr (.inl ⟨rfl, h.symm⟩)
  | active =>
    rw [checkStatus_active hs] at h
    by_cases hb : s.engine.blockLen.toNat < 64
    · rw [Memory.store_of_lt _ _ hb] at h
      simp only [finishFinalize, Host.Outcome.next.injEq] at h
      exact .inr (.inr ⟨rfl, hb, _, rfl, h.symm⟩)
    · rw [Memory.store_eq_none.2 (by omega)] at h
      simp [finishFinalize] at h

/-- FINALIZE is never refused. -/
theorem execFinalize_not_refused (s : State) (r : Refusal) : execFinalize s ≠ .refused r := by
  unfold execFinalize checkStatus finishFinalize
  split <;> (try split) <;> simp

/-! ### Blocks of a message -/

theorem firstBlocks_length (n : Nat) (bytes : List Byte) : (firstBlocks n bytes).length = n := by
  induction n generalizing bytes with
  | zero => rfl
  | succ n ih => simp [firstBlocks, ih]

/-- The blocks of a message in two parts. -/
theorem firstBlocks_add (m n : Nat) (bytes : List Byte) :
    firstBlocks (m + n) bytes = firstBlocks m bytes ++ firstBlocks n (bytes.drop (64 * m)) := by
  induction m generalizing bytes with
  | zero => simp [firstBlocks]
  | succ m ih =>
    rw [show m + 1 + n = (m + n) + 1 by omega, firstBlocks, firstBlocks, ih, List.cons_append, List.drop_drop]
    simp only [blockSize]
    rw [show 64 + 64 * m = 64 * (m + 1) by omega]

/-- The complete blocks of a message do not see what is appended to it. -/
theorem firstBlocks_append {n : Nat} {a b : List Byte} (h : 64 * n ≤ a.length) :
    firstBlocks n (a ++ b) = firstBlocks n a := by
  induction n generalizing a with
  | zero => rfl
  | succ n ih =>
    simp only [firstBlocks, blockSize]
    rw [List.take_append_of_le_length (by omega), List.drop_append_of_le_length (by omega),
      ih (by simp; omega)]

end Sys2Proof.Machine
end

