-- ==== Sys2Proof/Laws/PerInstr.lean ====
section
/-! SUPPORT. What holds of every instruction, one lemma per constructor (LAWS.json). -/

/-- The command of an instruction passes every check of a well-formed command (30_encoding.md R60, R64). -/
def Sys2Proof.Laws.EncodesWellFormed.Statement (i : Sys2Proof.Instr) : Prop := (Sys2Proof.encode i).wf = true

theorem Sys2Proof.Laws.EncodesWellFormed.init : Sys2Proof.Laws.EncodesWellFormed.Statement .init := by
  show (Sys2Proof.encode .init).wf = true
  decide

theorem Sys2Proof.Laws.EncodesWellFormed.update (data : List Sys2Proof.Byte) :
    Sys2Proof.Laws.EncodesWellFormed.Statement (.update data) := by
  show ((_ == _) && (_ != _) && ((_ == _) || _)) = true
  simp [Sys2Proof.encode, Sys2Proof.headerOf]

theorem Sys2Proof.Laws.EncodesWellFormed.finalize : Sys2Proof.Laws.EncodesWellFormed.Statement .finalize := by
  show (Sys2Proof.encode .finalize).wf = true
  decide
end

