-- ==== Sys2Proof/Laws/Platform.lean ====
section
/-! SUPPORT. The platform has an engine to step. -/

namespace Sys2Proof.Machine

/-- `N_ENGINES >= 1` (R150). -/
theorem engineCount_pos : 0 < Config.engineCount := Nat.succ_pos _

/-- All that a step of a platform can do when it answers a next platform. -/
theorem Platform.step_next {k : Fin Config.engineCount} {p q : Platform} (h : Platform.step k p = .next q) :
    ∃ s', Machine.step p.engines[k] = .next s' ∧ q = ⟨p.engines.set k s'⟩ := by
  unfold Platform.step at h
  split at h <;> cases h
  exact ⟨_, ‹_›, rfl⟩

end Sys2Proof.Machine
end

