-- ==== Sys2Proof/Laws/Step.lean ====
section
/-! SUPPORT. All that a step can do, and runs step by step. -/

namespace Sys2Proof.Machine

theorem step_none {s : State} (h : s.pending = []) : step s = .next s := by simp [step, stepEvents, h]

theorem step_event {s : State} {ev : HostEvent} {rest : List HostEvent} (h : s.pending = ev :: rest) :
    step s = runEvent ev (s.withPending rest) := by simp [step, stepEvents, h]

theorem step_reset {s : State} {rest : List HostEvent} (h : s.pending = .reset :: rest) :
    step s = .next (hardwareReset (s.withPending rest)) := step_event h

theorem step_rejected {s : State} {c : Command} {r : Reject} {rest : List HostEvent}
    (h : s.pending = .command c :: rest) (hd : decode c = .error r) :
    step s = .refused (.reservedCommand r) := by
  rw [step_event h]; simp [runEvent, runCommand, hd]

theorem step_resetDuring {s : State} {c : Command} {i : Instr} {rest : List HostEvent}
    (h : s.pending = .resetDuring c :: rest) (hd : decode c = .ok i) :
    step s = .next (hardwareReset (s.withPending rest)) := by
  rw [step_event h]; simp [runEvent, abandonCommand, hd]

/-- All that a step can do when it answers a next state. -/
theorem step_next {s t : State} (h : step s = .next t) :
    (s.pending = [] ∧ t = s) ∨
    (∃ rest, t = hardwareReset (s.withPending rest) ∧
      (s.pending = .reset :: rest ∨ ∃ c i, s.pending = .resetDuring c :: rest ∧ decode c = .ok i)) ∨
    (∃ c i rest, s.pending = .command c :: rest ∧ decode c = .ok i ∧ exec i (s.withPending rest) = .next t) := by
  cases hp : s.pending with
  | nil => rw [step_none hp, Host.Outcome.next.injEq] at h; exact .inl ⟨rfl, h.symm⟩
  | cons ev rest =>
    rw [step_event hp] at h
    cases ev with
    | command c =>
      cases hd : decode c with
      | ok i => simp only [runEvent, runCommand, hd] at h; exact .inr (.inr ⟨c, i, rest, rfl, hd, h⟩)
      | error r => simp [runEvent, runCommand, hd] at h
    | reset =>
      simp only [runEvent, Host.Outcome.next.injEq] at h
      exact .inr (.inl ⟨rest, h.symm, .inl rfl⟩)
    | resetDuring c =>
      cases hd : decode c with
      | ok i =>
        simp only [runEvent, abandonCommand, hd, Host.Outcome.next.injEq] at h
        exact .inr (.inl ⟨rest, h.symm, .inr ⟨c, i, rfl, hd⟩⟩)
      | error r => simp [runEvent, abandonCommand, hd] at h

/-- All that an instruction can do when it answers a next state: its effect in one of the forms of the meanings, and
`pending` as it was. -/
theorem exec_pending {i : Instr} {s t : State} (h : exec i s = .next t) : t.pending = s.pending := by
  cases i with
  | init => simp only [exec, execInit, Host.Outcome.next.injEq] at h; simp [← h]
  | update data =>
    rcases execUpdate_next h with ⟨_, rfl⟩ | ⟨_, rfl⟩ | ⟨_, e, _, rfl⟩ | ⟨_, e, _, rfl⟩ <;> rfl
  | finalize => rcases execFinalize_next h with ⟨_, rfl⟩ | ⟨_, rfl⟩ | ⟨_, _, hw, _, rfl⟩ <;> rfl

@[simp] theorem run_zero (s : State) : run 0 s = .next s := rfl

theorem run_succ_next {n : Nat} {s t : State} (h : step s = .next t) : run (n + 1) s = run n t := by simp [run, h]

theorem run_one (s : State) : run 1 s = step s := by
  simp only [run]; cases step s <;> rfl

/-- A run in two parts. -/
theorem run_add {m n : Nat} {s t : State} (h : run m s = .next t) : run (m + n) s = run n t := by
  induction m generalizing s with
  | zero => simp only [run_zero, Host.Outcome.next.injEq] at h; simp [h]
  | succ m ih =>
    rw [show m + 1 + n = (m + n) + 1 by omega]
    cases hs : step s with
    | next s' => rw [run_succ_next hs] at h ⊢; exact ih h
    | fault r => simp [run, hs] at h
    | refused r => simp [run, hs] at h

/-- The runs of the claims are the runs of the host's interface. -/
theorem core_run_eq (n : Nat) (s : State) : Host.Core.run Sys2Proof.core n s = run n s := by
  induction n generalizing s with
  | zero => rfl
  | succ n ih =>
    cases hs : step s with
    | next s' =>
      rw [run_succ_next hs, ← ih s']; simp only [Host.Core.run]; rw [show Sys2Proof.core.step s = .next s' from hs]
    | fault r => simp only [run, hs, Host.Core.run]; rw [show Sys2Proof.core.step s = .fault r from hs]; rfl
    | refused r => simp only [run, hs, Host.Core.run]; rw [show Sys2Proof.core.step s = .refused r from hs]; rfl

/-- An induction once: what reset has and every step keeps, every state has that a run reaches from a state that has it. -/
theorem run_induction {P : State → Prop} (hstep : ∀ s t, P s → step s = .next t → P t) {n : Nat} {s t : State}
    (hs : P s) (h : run n s = .next t) : P t := by
  induction n generalizing s with
  | zero => simp only [run_zero, Host.Outcome.next.injEq] at h; exact h ▸ hs
  | succ n ih =>
    cases hst : step s with
    | next s' => rw [run_succ_next hst] at h; exact ih (hstep s s' hs hst) h
    | fault r => simp [run, hst] at h
    | refused r => simp [run, hst] at h

/-- A simulation once: if related machines show the same responses, and their steps stop alike or lead to related
machines, then all their runs show the same. -/
theorem observe_run_eq_of_simulation {R : State → State → Prop} (hobs : ∀ s t, R s t → s.responses = t.responses)
    (hstep : ∀ s t, R s t →
      (∃ s' t', step s = .next s' ∧ step t = .next t' ∧ R s' t') ∨
      (∃ r, step s = .fault r ∧ step t = .fault r) ∨
      (∃ r, step s = .refused r ∧ step t = .refused r))
    (n : Nat) {s t : State} (h : R s t) : observe (run n s) = observe (run n t) := by
  induction n generalizing s t with
  | zero => simp [observe, hobs s t h]
  | succ n ih =>
    rcases hstep s t h with ⟨s', t', h1, h2, h3⟩ | ⟨r, h1, h2⟩ | ⟨r, h1, h2⟩
    · rw [run_succ_next h1, run_succ_next h2]; exact ih h3
    · simp [run, h1, h2]
    · simp [run, h1, h2]

end Sys2Proof.Machine
end

