-- ==== Sys2Proof/Tests/Helpers.lean ====
section
/-! SUPPORT. What the tests and the witnesses build their states from. -/

namespace Sys2Proof.Tests

open Sys2Proof Sys2Proof.Machine

/-- "abc" (S2 of 95_test_vectors.md). -/
def abc : List Byte := [0x61#8, 0x62#8, 0x63#8]

/-- An engine as after reset but for its lengths, status and stored error. -/
def engineWith (status : Status) (blockLen bitLen : Nat) (cerr : ResultCode := .ok) : DigestState :=
  { DigestState.reset with
    status := status, blockLen := BitVec.ofNat 7 blockLen, bitLen := BitVec.ofNat 64 bitLen, cerr := cerr }

/-- A machine with that engine. -/
def machineWith (status : Status) (blockLen bitLen : Nat) (cerr : ResultCode := .ok) : State :=
  { State.reset with engine := engineWith status blockLen bitLen cerr }

/-- A machine with events to come. -/
def withEvents (evs : List HostEvent) (s : State := State.reset) : State := s.withPending evs

/-- A check of the next state. -/
def nextSatisfies (o : Host.Outcome State Fault Refusal) (check : State → Bool) : Bool :=
  match o with
  | .next t => check t
  | _       => false

end Sys2Proof.Tests
end

