-- ==== Sys2Proof/Tests/Slice0.lean ====
section
/-! SUPPORT. Tests: expected values are the spec's own (95_test_vectors.md, and the examples of the rules). -/

namespace Sys2Proof.Tests

open Sys2Proof Sys2Proof.Machine

/-! ### WellFormed: an ill-formed command for each check (95_test_vectors.md 2.11) -/

theorem test_wf_refuses_reserved_bits : (⟨0x41#8, []⟩ : Command).reservedBitsZero = false := by decide
theorem test_wf_refuses_reserved_opcode : (⟨0x03#8, []⟩ : Command).opcodeDefined = false := by decide
theorem test_wf_refuses_payload_on_init : (⟨0x00#8, [0x61#8]⟩ : Command).payloadAllowed = false := by decide
theorem test_wf_refuses_payload_on_finalize : (⟨0x02#8, [0x00#8]⟩ : Command).payloadAllowed = false := by decide
theorem test_wf_refuses_each :
    ((⟨0x81#8, []⟩ : Command).wf || (⟨0x03#8, abc⟩ : Command).wf || (⟨0x02#8, abc⟩ : Command).wf) = false := by decide
theorem test_wf_admits_update : (⟨0x01#8, abc⟩ : Command).wf = true := by decide

/-! ### Decoding: the words of R61 to R64, bit by bit -/

theorem test_decode_init : decode ⟨0b00000000#8, []⟩ = .ok .init := rfl
theorem test_decode_update : decode ⟨0b00000001#8, abc⟩ = .ok (.update abc) := rfl
theorem test_decode_finalize : decode ⟨0b00000010#8, []⟩ = .ok .finalize := rfl
theorem test_decode_reserved_opcode : decode ⟨0b00000011#8, []⟩ = .error .reservedOpcode := rfl
theorem test_decode_reserved_bits :
    [0x04#8, 0x41#8, 0x81#8, 0xFF#8].map (fun b => decodeTableWord 8 b.toNat) = [none, none, none, none] := by
  decide
theorem test_decode_payload_on_init : decode ⟨0x00#8, [0x61#8]⟩ = .error .payloadOnInit := rfl
theorem test_decode_payload_on_finalize : decode ⟨0x02#8, [0x00#8]⟩ = .error .payloadOnFinalize := rfl
theorem test_table_word_with_payload : decodeTableWord 32 0x63626101 = some (.update abc) := by decide
theorem test_every_other_header_refused :
    ((List.range 256).filter fun w => (decodeTableWord 8 w).isSome) = [0, 1, 2] := by decide

/-- The listing lines of R68. -/
theorem test_listing_lines :
    (Line.updateText ['a', 'b', 'c']).command = ⟨0x01#8, abc⟩ ∧
    (Line.updateHex [(6#4, 1#4), (6#4, 2#4)]).command = ⟨0x01#8, [0x61#8, 0x62#8]⟩ ∧
    (Line.updateRepeat 'a' 3).command = ⟨0x01#8, [0x61#8, 0x61#8, 0x61#8]⟩ ∧
    (Line.cmd 0x03#8).command = ⟨0x03#8, []⟩ := by decide

/-! ### Words and the compression (95_test_vectors.md 2.1, 2.2, 2.4, 2.5, 2.9) -/

theorem test_rotl :
    rotl 0x80000000#32 1 = 0x00000001#32 ∧ rotl 0x67452301#32 5 = 0xE8A4602C#32 ∧
    rotl 0xEFCDAB89#32 30 = 0x7BF36AE2#32 := by decide
theorem test_mixing_functions :
    ch 0x0F0F0F0F#32 0x33333333#32 0x55555555#32 = 0x53535353#32 ∧
    parity 0x0F0F0F0F#32 0x33333333#32 0x55555555#32 = 0x69696969#32 ∧
    maj 0x0F0F0F0F#32 0x33333333#32 0x55555555#32 = 0x17171717#32 := by decide
theorem test_round_0 :
    shaRound 0 0x61626380#32 (loadWorking HashWords.initial) =
      ⟨0x0116FC33#32, 0x67452301#32, 0x7BF36AE2#32, 0x98BADCFE#32, 0x10325476#32⟩ := by decide
theorem test_pipeline_padded_empty :
    compressPipelined HashWords.initial (0x80#8 :: List.replicate 63 0x00#8) =
      ⟨0xDA39A3EE#32, 0x5E6B4B0D#32, 0x3255BFEF#32, 0x95601890#32, 0xAFD80709#32⟩ := by decide +kernel
theorem test_length_field : beBytes64 24#64 = [0, 0, 0, 0, 0, 0, 0, 0x18#8] := by decide
theorem test_project :
    project ⟨0xA9993E36#32, 0x4706816A#32, 0xBA3E2571#32, 0x7850C26C#32, 0x9CD0D89D#32⟩ =
      [0xA9, 0x99, 0x3E, 0x36, 0x47, 0x06, 0x81, 0x6A, 0xBA, 0x3E, 0x25, 0x71, 0x78, 0x50, 0xC2, 0x6C,
       0x9C, 0xD0, 0xD8, 0x9D] := by decide
theorem test_sha1_abc :
    sha1 abc = [0xA9, 0x99, 0x3E, 0x36, 0x47, 0x06, 0x81, 0x6A, 0xBA, 0x3E, 0x25, 0x71, 0x78, 0x50, 0xC2, 0x6C,
       0x9C, 0xD0, 0xD8, 0x9D] := by decide +kernel

/-! ### The block buffer keeps its canonical form -/

theorem test_put_zero_removes : (Memory.put (Memory.put [] 5 0x11#8) 5 0x00#8) = [] := by decide
theorem test_put_in_order :
    Memory.put (Memory.put [] 5 0x11#8) 2 0x22#8 = [(2, 0x22#8), (5, 0x11#8)] := by decide

/-! ### The commands, one step each (95_test_vectors.md 2.6, 2.7, 2.8, 2.10) -/

theorem test_init_from_corrupted :
    nextSatisfies (exec .init (machineWith .corrupted 63 504 .inputTooLong))
      (fun t => t.engine = DigestState.reset ∧ t.responses = [⟨.ok, none⟩]) = true := by decide
theorem test_update_abc :
    nextSatisfies (exec (.update abc) State.reset)
      (fun t => t.engine.block = [(0, 0x61#8), (1, 0x62#8), (2, 0x63#8)] ∧ t.engine.blockLen = 3#7 ∧
        t.engine.bitLen = 24#64 ∧ t.engine.h = HashWords.initial) = true := by decide
theorem test_update_overflow :
    nextSatisfies (exec (.update [0x78#8, 0x79#8]) (machineWith .active 62 (2 ^ 64 - 16)))
      (fun t => t.engine.blockLen = 63#7 ∧ t.engine.bitLen = 0xFFFFFFFFFFFFFFF8#64 ∧ t.engine.status = .corrupted ∧
        t.engine.cerr = .inputTooLong ∧ t.responses = [⟨.inputTooLong, none⟩]) = true := by decide
theorem test_finalize_empty_message :
    nextSatisfies (exec .finalize State.reset)
      (fun t => t.responses = [⟨.ok, some [0xDA, 0x39, 0xA3, 0xEE, 0x5E, 0x6B, 0x4B, 0x0D, 0x32, 0x55, 0xBF, 0xEF,
          0x95, 0x60, 0x18, 0x90, 0xAF, 0xD8, 0x07, 0x09]⟩] ∧ t.engine.status = .finalized) = true := by decide +kernel
theorem test_finalize_two_blocks :
    nextSatisfies (exec .finalize (machineWith .active 63 (2 ^ 64 - 8)))
      (fun t => t.engine.h = ⟨0x17050117#32, 0x21FB7871#32, 0x6498BE2B#32, 0xFEC5B5AD#32, 0x9790042C#32⟩ ∧
        t.engine.bitLen = 0#64) = true := by decide +kernel
theorem test_step_runs_fetched_word :
    nextSatisfies (step (State.reset.withFetchWord 32 0x63626101)) (fun t => t.engine.blockLen = 3#7) = true := by
  decide

end Sys2Proof.Tests
end

