-- ==== Sys2Proof/Tests/Witnesses.lean ====
section
/-! SUPPORT. For every statement of Certificates/Slice0/Obligations.lean with hypotheses, a theorem named after it shows a
state and operands that meet them together; several where its clauses part. -/

namespace Sys2Proof.Tests

open Sys2Proof Sys2Proof.Machine

theorem witness_ReservedCommandsAreRefused :
    (withEvents [.command ⟨0x01#8, abc⟩]).pending = .command ⟨0x01#8, abc⟩ :: [] ∧
    (withEvents [.command ⟨0x03#8, []⟩]).pending = .command ⟨0x03#8, []⟩ :: [] ∧
    (withEvents [.command ⟨0x02#8, [0x00#8]⟩]).pending = .command ⟨0x02#8, [0x00#8]⟩ :: [] := ⟨rfl, rfl, rfl⟩
theorem witness_StepRunsDecodedCommand :
    (withEvents [issued .finalize]).pending = .command ⟨0x02#8, []⟩ :: [] ∧ decode ⟨0x02#8, []⟩ = .ok .finalize :=
  ⟨rfl, rfl⟩
theorem witness_StepWithoutEventRests : State.reset.pending = [] := rfl
theorem witness_ResetEventGivesResetStateSilently :
    (withEvents [.reset] (machineWith .corrupted 5 40 .stateError)).pending = .reset :: [] ∧
    ((withEvents [.resetDuring ⟨0x01#8, abc⟩]).pending = .resetDuring ⟨0x01#8, abc⟩ :: [] ∧
      decode ⟨0x01#8, abc⟩ = .ok (.update abc)) := ⟨rfl, rfl, rfl⟩
theorem witness_InitRebuildsEveryField :
    ∃ t', exec .init (machineWith .finalized 0 0) = .next t' := ⟨_, rfl⟩
theorem witness_ResetLeavesInitialState : ∃ t, exec .init State.reset = .next t := ⟨_, rfl⟩
theorem witness_RotlFormula : (0 < 1 ∧ 1 < 32) ∧ (0 < 31 ∧ 31 < 32) := by decide
theorem witness_BigEndianConversions : (0 < 8 ∧ 7 < 8) ∧ (0 < 4 ∧ 3 < 4) := by decide
theorem witness_MixingFunctionsBitwise : 0 < 32 ∧ 31 < 32 := by decide
theorem witness_RoundSelectsPass :
    (0 ≤ 19 ∧ 19 ≤ 19) ∧ ((20 ≤ 20 ∧ 20 ≤ 39) ∧ (20 ≤ 39 ∧ 39 ≤ 39)) ∧ ((40 ≤ 40 ∧ 40 ≤ 59) ∧ (40 ≤ 59 ∧ 59 ≤ 59)) ∧
    ((60 ≤ 60 ∧ 60 ≤ 79) ∧ (60 ≤ 79 ∧ 79 ≤ 79)) := by decide
theorem witness_ScheduleFollowsRecurrence :
    (List.replicate 64 0x61#8).length = 64 ∧ 15 < 16 ∧ (16 ≤ 16 ∧ 16 < 80) ∧ (16 ≤ 79 ∧ 79 < 80) := by decide
theorem witness_CompressIsEightyRounds : (List.replicate 64 0x61#8).length = 64 := by decide
theorem witness_FailStoresErrorAndSticks :
    (machineWith .corrupted 63 504 .inputTooLong).engine.status = .corrupted := rfl
theorem witness_FinalizedEngineFailsWithStateError : (machineWith .finalized 0 0).engine.status = .finalized := rfl
theorem witness_BadBlockLenFaults :
    (machineWith .active 64 0).engine.status = .active ∧ 64 ≤ (machineWith .active 64 0).engine.blockLen.toNat ∧
    (machineWith .active 64 0).engine.bitLen.toNat + 8 < 2 ^ 64 := by decide
theorem witness_AbsorbOneByte :
    ((machineWith .active 62 496).engine.status = .active ∧ (machineWith .active 62 496).engine.blockLen.toNat < 63 ∧
      (machineWith .active 62 496).engine.bitLen.toNat + 8 < 2 ^ 64) ∧
    ((machineWith .active 63 504).engine.status = .active ∧ (machineWith .active 63 504).engine.blockLen.toNat = 63 ∧
      (machineWith .active 63 504).engine.bitLen.toNat + 8 < 2 ^ 64) ∧
    ((machineWith .active 63 (2 ^ 64 - 8)).engine.status = .active ∧
      (machineWith .active 63 (2 ^ 64 - 8)).engine.blockLen.toNat ≤ 63 ∧
      2 ^ 64 ≤ (machineWith .active 63 (2 ^ 64 - 8)).engine.bitLen.toNat + 8) := by decide
theorem witness_EmptyUpdateOnActiveEngine : State.reset.engine.status = .active := rfl
theorem witness_UpdateWithinLimitCompletes :
    (machineWith .active 62 496).engine.status = .active ∧ (machineWith .active 62 496).engine.blockLen.toNat ≤ 63 ∧
    (machineWith .active 62 496).engine.bitLen.toNat + 8 * abc.length < 2 ^ 64 := by decide
theorem witness_UpdateWithinLimitCompletes_same_block :
    (machineWith .active 0 0).engine.blockLen.toNat + abc.length < 64 ∧
    (∀ k, k < abc.length → ((machineWith .active 0 0).engine.blockLen.toNat + k) % 64 ≠ 63) := by decide
theorem witness_OverflowInMidPayload :
    (machineWith .active 62 (2 ^ 64 - 16)).engine.status = .active ∧
    (machineWith .active 62 (2 ^ 64 - 16)).engine.blockLen.toNat ≤ 63 ∧
    (machineWith .active 62 (2 ^ 64 - 16)).engine.bitLen.toNat + 8 * [0x78#8].length = 2 ^ 64 - 8 := by decide
theorem witness_OverflowExactlyAtLimit :
    ((machineWith .active 63 (2 ^ 64 - 8)).engine.status = .active ∧
      (machineWith .active 63 (2 ^ 64 - 8)).engine.blockLen.toNat ≤ 63 ∧
      (machineWith .active 63 (2 ^ 64 - 8)).engine.bitLen.toNat % 8 = 0) ∧
    ((machineWith .active 62 (2 ^ 64 - 16)).engine.status = .active ∧
      (machineWith .active 62 (2 ^ 64 - 16)).engine.blockLen.toNat ≤ 63 ∧
      (machineWith .active 62 (2 ^ 64 - 16)).engine.bitLen.toNat % 8 = 0) := by decide
theorem witness_OverflowExactlyAtLimit_next : ∃ t, exec (.update abc) State.reset = .next t := ⟨_, rfl⟩
theorem witness_ChunkingInvariance :
    (machineWith .active 62 496).engine.status = .active ∧ (machineWith .active 62 496).engine.blockLen.toNat ≤ 63 ∧
    (machineWith .active 62 496).engine.bitLen.toNat + 8 * (abc.length + abc.length) < 2 ^ 64 := by decide
theorem witness_AccumulatedMessageState :
    8 * [abc, [], abc].flatten.length < 2 ^ 64 ∧
    (withEvents [issued .init, issued (.update abc), issued (.update []), issued (.update abc)]).pending =
      issued .init :: [abc, [], abc].map (fun m => issued (.update m)) := by decide
theorem witness_FinalizePadsAndCompresses_one_block :
    ((machineWith .active 0 0).engine.status = .active ∧ (machineWith .active 0 0).engine.blockLen.toNat ≤ 55) ∧
    ((machineWith .active 55 440).engine.status = .active ∧
      (machineWith .active 55 440).engine.blockLen.toNat ≤ 55) := by decide
theorem witness_FinalizePadsAndCompresses_two_blocks :
    ((machineWith .active 56 448).engine.status = .active ∧ 56 ≤ (machineWith .active 56 448).engine.blockLen.toNat ∧
      (machineWith .active 56 448).engine.blockLen.toNat ≤ 63) ∧
    ((machineWith .active 63 504).engine.status = .active ∧ 56 ≤ (machineWith .active 63 504).engine.blockLen.toNat ∧
      (machineWith .active 63 504).engine.blockLen.toNat ≤ 63) := by decide
theorem witness_FinalizeRespondsDigest :
    (machineWith .active 63 504).engine.status = .active ∧ (machineWith .active 63 504).engine.blockLen.toNat ≤ 63 ∧
    0 < 20 ∧ 19 < 20 := by decide
theorem witness_FinalizeClearsBlock :
    (machineWith .active 0 0).engine.status = .active ∧ (machineWith .active 0 0).engine.blockLen.toNat ≤ 63 := by decide

/-- The engine after reset is coherent. -/
theorem reset_coherent : DigestState.reset.Coherent where
  blockWf          := by decide
  blockLenInRange  := by decide
  bitLenWholeBytes := by decide
  activeLengths    := fun _ => by decide
  noStoredError    := fun _ => rfl
  storedError      := fun h => nomatch h
  finalizedCleared := fun h => nomatch h

/-- A machine with a coherent engine that has not responded yet has the invariant, whatever is to come. -/
theorem withEvents_inv (evs : List HostEvent) : (withEvents evs).Inv := ⟨reset_coherent, (fun _ h => nomatch h)⟩

theorem witness_StepKeepsInvariant :
    (withEvents [issued (.update abc)]).Inv ∧ ∃ t, step (withEvents [issued (.update abc)]) = .next t :=
  ⟨withEvents_inv _, _, rfl⟩
theorem witness_InvariantStepNeverFaults : (withEvents [.command ⟨0x03#8, []⟩]).Inv := withEvents_inv _
theorem witness_EveryAdmittedCommandRespondsOnce :
    (withEvents [issued .finalize]).Inv ∧ (withEvents [issued .finalize]).pending = .command ⟨0x02#8, []⟩ :: [] ∧
    decode ⟨0x02#8, []⟩ = .ok .finalize := ⟨withEvents_inv _, rfl, rfl⟩
theorem witness_OnlyInitAndResetReviveEngine :
    (withEvents [issued (.update abc)] (machineWith .finalized 0 0)).engine.status ≠ .active ∧
    ∃ t, step (withEvents [issued (.update abc)] (machineWith .finalized 0 0)) = .next t :=
  ⟨(fun h => nomatch h), _, rfl⟩
theorem witness_StatusTransitionTable :
    (∃ t, exec (.update abc) State.reset = .next t) ∧ (∃ t, exec .finalize State.reset = .next t) ∧
    (∃ t, exec (.update abc) (machineWith .finalized 0 0) = .next t) ∧
    (∃ t, exec .finalize (machineWith .corrupted 0 0 .stateError) = .next t) := ⟨⟨_, rfl⟩, ⟨_, rfl⟩, ⟨_, rfl⟩, ⟨_, rfl⟩⟩
theorem witness_ResponsesOnlyGrow : ∃ t, run 1 (withEvents [issued .init]) = .next t := ⟨_, rfl⟩
theorem witness_StoredErrorHidesState :
    (machineWith .corrupted 63 504 .stateError).engine.status = .corrupted ∧
    (machineWith .corrupted 0 0 .stateError).engine.status = .corrupted ∧
    (machineWith .corrupted 63 504 .stateError).engine.cerr = (machineWith .corrupted 0 0 .stateError).engine.cerr ∧
    (machineWith .corrupted 63 504 .stateError).pending = (machineWith .corrupted 0 0 .stateError).pending ∧
    (machineWith .corrupted 63 504 .stateError).responses = (machineWith .corrupted 0 0 .stateError).responses :=
  ⟨rfl, rfl, rfl, rfl, rfl⟩
theorem witness_FinalizedLooksLikeStateError :
    (machineWith .finalized 0 0).engine.status = .finalized ∧
    (machineWith .corrupted 0 0 .stateError).engine.status = .corrupted ∧
    (machineWith .corrupted 0 0 .stateError).engine.cerr = .stateError ∧
    (machineWith .finalized 0 0).pending = (machineWith .corrupted 0 0 .stateError).pending ∧
    (machineWith .finalized 0 0).responses = (machineWith .corrupted 0 0 .stateError).responses :=
  ⟨rfl, rfl, rfl, rfl, rfl⟩

/-- The reset engine with a stale byte past `block_len`. -/
def staleEngine : DigestState := { DigestState.reset with block := [(7, 0x55#8)] }

theorem witness_StaleBlockBytesInvisible :
    DigestState.reset.AgreeToBlockLen staleEngine ∧ DigestState.reset.block ≠ staleEngine.block :=
  ⟨⟨rfl, rfl, rfl, rfl, rfl, fun _ h => absurd h (Nat.not_lt_zero _)⟩, by decide⟩
theorem witness_HashOfWholeMessage :
    abc.length ≤ 2 ^ 61 - 1 ∧ (withEvents ((hashCommand abc).map issued)).pending = (hashCommand abc).map issued :=
  ⟨by decide, rfl⟩
theorem witness_HashOfAnySplit :
    [abc, [], abc].flatten.length ≤ 2 ^ 61 - 1 ∧
    (withEvents [issued .init, issued (.update abc), issued (.update []), issued (.update abc),
      issued .finalize]).pending =
      issued .init :: ([abc, [], abc].map (fun m => issued (.update m)) ++ [issued .finalize]) := by decide
theorem witness_PaddedMessageFillsBlocks : 0 < zeroPadding 0 := by decide
theorem witness_EnginesAreIndependent :
    ∃ (k : Fin Config.engineCount) (q : Platform), Platform.step k Platform.reset = .next q := by
  refine ⟨⟨0, engineCount_pos⟩, ⟨Platform.reset.engines.set 0 State.reset engineCount_pos⟩, ?_⟩
  simp [Platform.step, Platform.reset, step, stepEvents, State.reset]

end Sys2Proof.Tests
end

section
/-! Rotation and the big-endian conversions, on numbers (00_scope.md R7, R8). -/

namespace Sys2Proof.Machine

/-- ROTL on numbers (R7): the left shift is a multiplication modulo `2^32`, the right shift a division. -/
theorem rotl_toNat (x : Word) (n : Nat) :
    (rotl x n).toNat = (x.toNat * 2 ^ n) % 2 ^ 32 ||| x.toNat / 2 ^ (32 - n) := by
  rw [rotl, BitVec.toNat_or, BitVec.toNat_shiftLeft, BitVec.toNat_ushiftRight, Nat.shiftLeft_eq,
    Nat.shiftRight_eq_div_pow]

/-- A byte appended to a bit vector is its least significant digit in base `2^8`. -/
theorem append_byte_toNat {w : Nat} (x : BitVec w) (b : Byte) :
    (x ++ b).toNat = x.toNat * 2 ^ 8 + b.toNat := by
  rw [BitVec.toNat_append, ← Nat.shiftLeft_add_eq_or_of_lt b.isLt, Nat.shiftLeft_eq]

theorem be32_toNat (b0 b1 b2 b3 : Byte) :
    (be32 b0 b1 b2 b3).toNat =
      b0.toNat * 2 ^ 24 + b1.toNat * 2 ^ 16 + b2.toNat * 2 ^ 8 + b3.toNat := by
  simp only [be32, append_byte_toNat]
  ring

/-- The byte that starts at bit `start`, on numbers. -/
theorem extractByte_toNat {w : Nat} (v : BitVec w) (start : Nat) :
    (v.extractLsb' start 8).toNat = v.toNat / 2 ^ start % 2 ^ 8 := by
  rw [BitVec.extractLsb'_toNat, Nat.shiftRight_eq_div_pow]

theorem beBytes32_getElem (v : Word) (j : Nat) (hj : j < (beBytes32 v).length) :
    (beBytes32 v)[j] = v.extractLsb' (24 - 8 * j) 8 := by simp [beBytes32]

theorem beBytes64_getD_toNat (v : DoubleWord) {j : Nat} (hj : j < 8) :
    ((beBytes64 v).getD j 0).toNat = v.toNat / 2 ^ (56 - 8 * j) % 2 ^ 8 := by
  rw [List.getD_eq_getElem _ _ (by simpa using hj), beBytes64_getElem, extractByte_toNat]

theorem beBytes32_getD_toNat (v : Word) {j : Nat} (hj : j < 4) :
    ((beBytes32 v).getD j 0).toNat = v.toNat / 2 ^ (24 - 8 * j) % 2 ^ 8 := by
  rw [List.getD_eq_getElem _ _ (by simpa using hj), beBytes32_getElem, extractByte_toNat]

/-- Settles O10: `rotl_toNat` holds at every distance; R7 asks for those strictly between 0 and 32. -/
theorem rotlFormula : Obligations.RotlFormula :=
  fun x n _ _ => rotl_toNat x n

/-- Settles O11: `be32` by its digits in base `2^8`, the byte lists element by element. -/
theorem bigEndianConversions : Obligations.BigEndianConversions :=
  ⟨be32_toNat,
    fun v => ⟨beBytes64_length v, fun _ hj => beBytes64_getD_toNat v hj⟩,
    fun v => ⟨beBytes32_length v, fun _ hj => beBytes32_getD_toNat v hj⟩⟩

end Sys2Proof.Machine
end

section
/-! Which engines are coherent, and that every step keeps the invariant (10_state.md R24 to R27, 60_exceptions.md R141). -/

namespace Sys2Proof.Machine

/-! ### Coherent engines -/

/-- Of an ACTIVE engine it is enough that the block is canonical, that the lengths agree (R24, R27) and that no error is
stored (R25). -/
theorem DigestState.coherent_of_active {e : DigestState} (hs : e.status = .active) (hw : e.block.wf = true)
    (h8 : e.bitLen.toNat % 8 = 0) (hl : e.blockLen.toNat = e.bitLen.toNat / 8 % 64) (hc : e.cerr = .ok) :
    e.Coherent where
  blockWf          := hw
  blockLenInRange  := by omega
  bitLenWholeBytes := h8
  activeLengths    := fun _ => hl
  noStoredError    := fun _ => hc
  storedError      := by simp [hs]
  finalizedCleared := by simp [hs]

theorem DigestState.coherent_reset : DigestState.reset.Coherent :=
  coherent_of_active rfl Memory.wf_zeros rfl rfl rfl

theorem DigestState.Coherent.corrupt {e : DigestState} (h : e.Coherent) {c : ResultCode}
    (hc : c = .inputTooLong ∨ c = .stateError) : (e.corrupt c).Coherent where
  blockWf          := h.blockWf
  blockLenInRange  := h.blockLenInRange
  bitLenWholeBytes := h.bitLenWholeBytes
  activeLengths    := by simp
  noStoredError    := by simp
  storedError      := fun _ => hc
  finalizedCleared := by simp

/-- CLEAR() leaves nothing to check but `cerr`, which it does not write (R128). -/
theorem DigestState.coherent_cleared {e : DigestState} (hc : e.cerr = .ok) (hw : HashWords) :
    (e.cleared hw).Coherent where
  blockWf          := Memory.wf_zeros
  blockLenInRange  := by simp
  bitLenWholeBytes := by simp
  activeLengths    := by simp
  noStoredError    := fun _ => hc
  storedError      := by simp
  finalizedCleared := by simp

/-- The stored `cerr` is never NULL_INPUT (R25, R141). -/
theorem DigestState.Coherent.cerr_ne_nullInput {e : DigestState} (h : e.Coherent) : e.cerr ≠ .nullInput := by
  by_cases hs : e.status = .corrupted
  · rcases h.storedError hs with hc | hc <;> simp [hc]
  · simp [h.noStoredError hs]

/-- One byte moves both lengths together, so they still agree (R27). -/
theorem DigestState.Coherent.of_absorb_done {x : Byte} {e e' : DigestState} (h : e.Coherent)
    (hs : e.status = .active) (ha : absorb x e = .done e') : e'.Coherent := by
  obtain ⟨-, hb, hblock, hblockLen, hbitLen, hstatus, hcerr, -⟩ := absorb_done_fields ha
  have h8 := h.bitLenWholeBytes
  have hl := h.activeLengths hs
  refine coherent_of_active (hstatus.trans hs) ?_ (by omega) (by omega) ?_
  · rw [hblock]; exact Memory.wf_put h.blockWf hb x
  · rw [hcerr]; exact h.noStoredError (by simp [hs])

/-- A payload keeps an ACTIVE engine coherent, absorbed whole or up to an overflow. -/
theorem DigestState.Coherent.of_absorbAll {data : List Byte} {e e' : DigestState} (h : e.Coherent)
    (hs : e.status = .active) (ha : absorbAll data e = .done e' ∨ absorbAll data e = .overflow e') :
    e'.Coherent := by
  have hbyte : ∀ x e e', e.Coherent ∧ e.status = .active → absorb x e = .done e' →
      e'.Coherent ∧ e'.status = .active := by
    intro x e e' ⟨hc, hs⟩ hx
    obtain ⟨-, -, -, -, -, hstatus, -⟩ := absorb_done_fields hx
    exact ⟨hc.of_absorb_done hs hx, hstatus.trans hs⟩
  obtain ⟨hdone, hoverflow⟩ := absorbAll_induction hbyte ⟨h, hs⟩ (data := data)
  exact ha.elim (fun ha => (hdone e' ha).1) fun ha => (hoverflow e' ha).1

/-! ### Legal responses -/

theorem Response.legal_without_digest {c : ResultCode} (hc : c ≠ .nullInput) : (⟨c, none⟩ : Response).Legal :=
  ⟨hc, by simp⟩

theorem Response.legal_digest (hw : HashWords) : (⟨.ok, some (project hw)⟩ : Response).Legal :=
  ⟨by simp, by rintro d ⟨⟩; exact ⟨rfl, project_length hw⟩⟩

/-! ### The invariant, operation by operation -/

theorem State.Inv.withEngine {s : State} (h : s.Inv) {e : DigestState} (he : e.Coherent) : (s.withEngine e).Inv :=
  ⟨he, h.responses⟩

theorem State.Inv.withPending {s : State} (h : s.Inv) (p : List HostEvent) : (s.withPending p).Inv :=
  ⟨h.engine, h.responses⟩

theorem State.Inv.respond {s : State} (h : s.Inv) {c : ResultCode} {d : Option (List Byte)}
    (hr : (⟨c, d⟩ : Response).Legal) : (s.respond c d).Inv := by
  refine ⟨h.engine, fun r hmem => ?_⟩
  rw [State.respond_responses, List.mem_append, List.mem_singleton] at hmem
  rcases hmem with hmem | rfl
  · exact h.responses r hmem
  · exact hr

theorem State.Inv.fail {s : State} (h : s.Inv) {c : ResultCode} (hc : c = .inputTooLong ∨ c = .stateError) :
    (s.fail c).Inv :=
  (h.withEngine (h.engine.corrupt hc)).respond
    (Response.legal_without_digest (by rcases hc with rfl | rfl <;> simp))

theorem State.Inv.hardwareReset {s : State} (h : s.Inv) : (hardwareReset s).Inv :=
  h.withEngine DigestState.coherent_reset

/-- The answer of a CORRUPTED engine (R144, R145). -/
theorem State.Inv.respond_cerr {s : State} (h : s.Inv) : (s.respond s.engine.cerr none).Inv :=
  h.respond (Response.legal_without_digest h.engine.cerr_ne_nullInput)

/-! ### The invariant, instruction by instruction -/

theorem execInit_keeps_inv {s t : State} (h : s.Inv) (he : execInit s = .next t) : t.Inv := by
  rw [execInit, DigestState.fresh_eq_reset, Host.Outcome.next.injEq] at he
  subst he
  exact (h.withEngine DigestState.coherent_reset).respond (Response.legal_without_digest (by simp))

theorem execUpdate_keeps_inv {data : List Byte} {s t : State} (h : s.Inv) (he : execUpdate data s = .next t) :
    t.Inv := by
  rcases execUpdate_next he with ⟨-, rfl⟩ | ⟨-, rfl⟩ | ⟨hs, e, ha, rfl⟩ | ⟨hs, e, ha, rfl⟩
  case inl => exact h.respond_cerr
  case inr.inl => exact h.fail (.inr rfl)
  case inr.inr.inl =>
    exact (h.withEngine (h.engine.of_absorbAll hs (.inl ha))).respond (Response.legal_without_digest (by simp))
  case inr.inr.inr => exact (h.withEngine (h.engine.of_absorbAll hs (.inr ha))).fail (.inl rfl)

theorem execFinalize_keeps_inv {s t : State} (h : s.Inv) (he : execFinalize s = .next t) : t.Inv := by
  rcases execFinalize_next he with ⟨-, rfl⟩ | ⟨-, rfl⟩ | ⟨hs, -, hw, -, rfl⟩
  case inl => exact h.respond_cerr
  case inr.inl => exact h.fail (.inr rfl)
  case inr.inr =>
    have hcerr : s.engine.cerr = .ok := h.engine.noStoredError (by simp [hs])
    exact (h.withEngine (DigestState.coherent_cleared hcerr hw)).respond (Response.legal_digest hw)

theorem exec_keeps_inv {i : Instr} {s t : State} (h : s.Inv) (he : exec i s = .next t) : t.Inv := by
  cases i with
  | init => exact execInit_keeps_inv h he
  | update data => exact execUpdate_keeps_inv h he
  | finalize => exact execFinalize_keeps_inv h he

/-- Settles O33: a step rests, resets the engine, or runs one instruction. -/
theorem stepKeepsInvariant : Obligations.StepKeepsInvariant := by
  intro s t h hstep
  rcases step_next hstep with ⟨-, rfl⟩ | ⟨rest, rfl, -⟩ | ⟨c, i, rest, -, -, hexec⟩
  · exact h
  · exact (h.withPending rest).hardwareReset
  · exact exec_keeps_inv (h.withPending rest) hexec

end Sys2Proof.Machine
end

section
/-! The absorption of a whole payload, field by field (40_init_update.md R82 to R84), and UPDATE inside the length limit. -/

namespace Sys2Proof.Machine

/-- A payload is absorbed whole exactly when its first byte is, and then the others. -/
theorem absorbAll_cons_eq_done {x : Byte} {xs : List Byte} {e e' : DigestState} :
    absorbAll (x :: xs) e = .done e' ↔ ∃ e1, absorb x e = .done e1 ∧ absorbAll xs e1 = .done e' := by
  cases h : absorb x e <;> simp [absorbAll, h]

/-- Inside the length limit no byte overflows (R83). -/
theorem absorbAll_done_of_within_limit {data : List Byte} {e : DigestState} (hb : e.blockLen.toNat < 64)
    (hl : e.bitLen.toNat + 8 * data.length < 2 ^ 64) : ∃ e', absorbAll data e = .done e' := by
  induction data generalizing e with
  | nil => exact ⟨e, rfl⟩
  | cons x xs ih =>
    rw [List.length_cons] at hl
    have hx := absorb_done (x := x) (e := e) (by omega) hb
    obtain ⟨-, -, -, hblockLen, hbitLen, -⟩ := absorb_done_fields hx
    rw [absorbAll_cons_done hx]
    exact ih (by omega) (by omega)

theorem absorbAll_done_bitLen {data : List Byte} {e e' : DigestState} (h : absorbAll data e = .done e') :
    e'.bitLen.toNat = e.bitLen.toNat + 8 * data.length := by
  induction data generalizing e with
  | nil => cases h; simp
  | cons x xs ih =>
    obtain ⟨e1, hx, hxs⟩ := absorbAll_cons_eq_done.1 h
    obtain ⟨-, -, -, -, hbitLen, -⟩ := absorb_done_fields hx
    rw [ih hxs, hbitLen, List.length_cons]
    omega

theorem absorbAll_done_blockLen {data : List Byte} {e e' : DigestState} (h : absorbAll data e = .done e')
    (hb : e.blockLen.toNat < 64) : e'.blockLen.toNat = (e.blockLen.toNat + data.length) % 64 := by
  induction data generalizing e with
  | nil => cases h; simp [Nat.mod_eq_of_lt hb]
  | cons x xs ih =>
    obtain ⟨e1, hx, hxs⟩ := absorbAll_cons_eq_done.1 h
    obtain ⟨-, -, -, hblockLen, -⟩ := absorb_done_fields hx
    rw [ih hxs (by omega), hblockLen, List.length_cons]
    omega

/-- The frame of the block: the byte `k` of the payload goes to `(block_len + k) mod 64` and nowhere else. -/
theorem absorbAll_done_get_of_untouched {data : List Byte} {e e' : DigestState} (h : absorbAll data e = .done e')
    {a : Nat} (ha : ∀ k, k < data.length → (e.blockLen.toNat + k) % 64 ≠ a) : e'.block.get a = e.block.get a := by
  induction data generalizing e with
  | nil => cases h; rfl
  | cons x xs ih =>
    obtain ⟨e1, hx, hxs⟩ := absorbAll_cons_eq_done.1 h
    obtain ⟨-, hb, hblock, hblockLen, -⟩ := absorb_done_fields hx
    have hfirst : a ≠ e.blockLen.toNat := by
      have := ha 0 (by simp)
      omega
    have hrest : ∀ k, k < xs.length → (e1.blockLen.toNat + k) % 64 ≠ a := by
      intro k hk
      have := ha (k + 1) (by simpa using hk)
      omega
    rw [ih hxs hrest, hblock, Memory.get_put, if_neg hfirst]

/-- The hash words move only when a block fills (R84). -/
theorem absorbAll_done_h_of_not_filled {data : List Byte} {e e' : DigestState} (h : absorbAll data e = .done e')
    (hf : e.blockLen.toNat + data.length < 64) : e'.h = e.h := by
  induction data generalizing e with
  | nil => cases h; rfl
  | cons x xs ih =>
    rw [List.length_cons] at hf
    obtain ⟨e1, hx, hxs⟩ := absorbAll_cons_eq_done.1 h
    obtain ⟨-, -, -, hblockLen, -, -, -, hh⟩ := absorb_done_fields hx
    rw [ih hxs (by omega), hh, if_neg (by omega)]

theorem absorbAll_done_status_cerr {data : List Byte} {e e' : DigestState} (h : absorbAll data e = .done e') :
    e'.status = e.status ∧ e'.cerr = e.cerr := by
  refine (absorbAll_induction (P := fun f => f.status = e.status ∧ f.cerr = e.cerr) ?_ ⟨rfl, rfl⟩).1 e' h
  intro x f f' ⟨hs, hc⟩ hx
  obtain ⟨-, -, -, -, -, hstatus, hcerr, -⟩ := absorb_done_fields hx
  exact ⟨hstatus.trans hs, hcerr.trans hc⟩

/-- UPDATE on an ACTIVE engine that absorbs the payload whole. -/
theorem execUpdate_of_absorbAll_done {data : List Byte} {s : State} {e : DigestState}
    (hs : s.engine.status = .active) (ha : absorbAll data s.engine = .done e) :
    execUpdate data s = .next ((s.withEngine e).respond .ok none) := by
  rw [execUpdate, checkStatus_active hs, ha, finishUpdate]

/-- Settles O24: the payload is absorbed whole, and each clause is one field of the engine it leaves. -/
theorem updateWithinLimitCompletes : Obligations.UpdateWithinLimitCompletes := by
  intro s data hs hb hl
  have hb' : s.engine.blockLen.toNat < 64 := by omega
  obtain ⟨e, he⟩ := absorbAll_done_of_within_limit hb' hl
  obtain ⟨hstatus, hcerr⟩ := absorbAll_done_status_cerr he
  exact ⟨_, execUpdate_of_absorbAll_done hs he,
    absorbAll_done_blockLen he hb',
    absorbAll_done_bitLen he,
    fun _ ha => absorbAll_done_get_of_untouched he ha,
    fun hf => absorbAll_done_h_of_not_filled he hf,
    hstatus.trans hs, hcerr, rfl, rfl⟩

end Sys2Proof.Machine
end

section
/-! Where `block_len` is an index of the block, every instruction completes (10_state.md R26, 20_memory.md R41). -/

namespace Sys2Proof.Machine

/-- The status check completes wherever the work behind it does. -/
theorem checkStatus_completes {s : State} {work : Host.Outcome State Fault Refusal}
    (h : ∃ t, work = .next t) : ∃ t, checkStatus s work = .next t := by
  cases hs : s.engine.status with
  | active => rw [checkStatus_active hs]; exact h
  | finalized => exact ⟨_, checkStatus_finalized hs work⟩
  | corrupted => exact ⟨_, checkStatus_corrupted hs work⟩

theorem execUpdate_completes (data : List Byte) {s : State} (hb : s.engine.blockLen.toNat < 64) :
    ∃ t, execUpdate data s = .next t := by
  refine checkStatus_completes ?_
  cases ha : absorbAll data s.engine with
  | done e => exact ⟨_, rfl⟩
  | overflow e => exact ⟨_, rfl⟩
  | badIndex => exact absurd ha (absorbAll_ne_badIndex hb)

theorem execFinalize_completes {s : State} (hb : s.engine.blockLen.toNat < 64) : ∃ t, execFinalize s = .next t := by
  refine checkStatus_completes ?_
  rw [Memory.store_of_lt _ _ hb]
  exact ⟨_, rfl⟩

theorem exec_completes (i : Instr) {s : State} (hb : s.engine.blockLen.toNat < 64) : ∃ t, exec i s = .next t := by
  cases i with
  | init => exact ⟨_, rfl⟩
  | update data => exact execUpdate_completes data hb
  | finalize => exact execFinalize_completes hb

/-- A command that decodes is run. -/
theorem step_command {s : State} {c : Command} {i : Instr} {rest : List HostEvent}
    (h : s.pending = .command c :: rest) (hd : decode c = .ok i) : step s = exec i (s.withPending rest) := by
  rw [step_event h, runEvent, runCommand, hd]

/-- A reset in the middle of a reserved command is refused like the command (log 4). -/
theorem step_resetDuring_rejected {s : State} {c : Command} {r : Reject} {rest : List HostEvent}
    (h : s.pending = .resetDuring c :: rest) (hd : decode c = .error r) :
    step s = .refused (.reservedCommand r) := by
  rw [step_event h, runEvent, abandonCommand, hd]

/-- Settles O34: of the invariant only the range of `block_len` is needed; a step stops only where decoding fails. -/
theorem invariantStepNeverFaults : Obligations.InvariantStepNeverFaults := by
  intro s h
  have hb : s.engine.blockLen.toNat < 64 := Nat.lt_succ_of_le h.engine.blockLenInRange
  cases hp : s.pending with
  | nil => exact .inl ⟨s, step_none hp⟩
  | cons ev rest =>
    cases ev with
    | reset => exact .inl ⟨_, step_reset hp⟩
    | command c =>
      cases hd : decode c with
      | ok i => rw [step_command hp hd]; exact .inl (exec_completes i hb)
      | error r => exact .inr ⟨c, r, rest, .inl rfl, hd, step_rejected hp hd⟩
    | resetDuring c =>
      cases hd : decode c with
      | ok i => exact .inl ⟨_, step_resetDuring hp hd⟩
      | error r => exact .inr ⟨c, r, rest, .inr rfl, hd, step_resetDuring_rejected hp hd⟩

end Sys2Proof.Machine
end

section
/-! UPDATE of one byte on an ACTIVE engine, and when it overflows (40_init_update.md R81 to R84, R86). -/

namespace Sys2Proof.Machine

/-- UPDATE on an ACTIVE engine that meets an overflow. -/
theorem execUpdate_of_absorbAll_overflow {data : List Byte} {s : State} {e : DigestState}
    (hs : s.engine.status = .active) (ha : absorbAll data s.engine = .overflow e) :
    execUpdate data s = .next ((s.withEngine e).fail .inputTooLong) := by
  rw [execUpdate, checkStatus_active hs, ha, finishUpdate]

/-- A byte that does not fill the block only moves `block_len` on (R84). -/
theorem absorb_done_not_filled {x : Byte} {e e' : DigestState} (ha : absorb x e = .done e')
    (hb : e.blockLen.toNat < 63) : e'.blockLen.toNat = e.blockLen.toNat + 1 ∧ e'.h = e.h := by
  obtain ⟨-, -, -, hblockLen, -, -, -, hh⟩ := absorb_done_fields ha
  exact ⟨by omega, by rw [hh, if_neg (by omega)]⟩

/-- The 64th byte has the block compressed, as it stands afterwards, and `block_len` starts again from 0 (R84, R29). -/
theorem absorb_done_filled {x : Byte} {e e' : DigestState} (ha : absorb x e = .done e')
    (hb : e.blockLen.toNat = 63) : e'.blockLen = 0#7 ∧ e'.h = compress e.h e'.block.bytes := by
  obtain ⟨-, -, hblock, hblockLen, -, -, -, hh⟩ := absorb_done_fields ha
  refine ⟨BitVec.eq_of_toNat_eq ?_, ?_⟩
  · rw [hblockLen, hb]; rfl
  · rw [hh, if_pos hb, hblock, hb]

/-- Settles O22: the byte is absorbed, and each clause is one field of the engine it leaves; or it overflows, and nothing
is written but the failure. -/
theorem absorbOneByte : Obligations.AbsorbOneByte := by
  intro s x hs hb
  refine ⟨fun hl => ?_, fun ho => ?_⟩
  · have ha := absorb_done (x := x) hl (Nat.lt_succ_of_le hb)
    obtain ⟨-, -, hblock, -, hbitLen, hstatus, hcerr, -⟩ := absorb_done_fields ha
    exact ⟨_, execUpdate_of_absorbAll_done hs (absorbAll_cons_done ha),
      fun a => (congrArg (Memory.get · a) hblock).trans (Memory.get_put _ _ a x),
      hbitLen,
      absorb_done_not_filled ha,
      absorb_done_filled ha,
      hstatus.trans hs, hcerr, rfl, rfl⟩
  · exact execUpdate_of_absorbAll_overflow hs (absorbAll_cons_overflow (absorb_overflow ho))

end Sys2Proof.Machine
end

section
/-! The 80 schedule words of a block (41_compression.md R100, R101). -/

namespace Sys2Proof.Machine

theorem schedule_length (bytes : List Byte) : (schedule bytes).length = 80 := by
  simp [schedule]

/-- A schedule extended by `n` words is the schedule up to `W[15+n]`, the newest word first. -/
theorem extendSchedule_getD_eq_schedule (bytes : List Byte) {n k : Nat} (hn : n ≤ 64) (hk : k < 16 + n) :
    (extendSchedule n (firstScheduleWords bytes).reverse).getD k 0 = (schedule bytes).getD (15 + n - k) 0 := by
  have hdrop := extendSchedule_drop (firstScheduleWords bytes).reverse (Nat.sub_le 64 n)
  rw [Nat.sub_sub_self hn] at hdrop
  have hlen : (extendSchedule 64 (firstScheduleWords bytes).reverse).length = 80 := by simp
  rw [← hdrop, schedule, List.getD_reverse _ (by omega), hlen, List.getD_eq_getElem?_getD, List.getElem?_drop,
    ← List.getD_eq_getElem?_getD]
  congr 1
  omega

/-- The words of the block come first (R100). -/
theorem schedule_getD_of_lt (bytes : List Byte) {i : Nat} (hi : i < 16) :
    (schedule bytes).getD i 0 = blockWord bytes i := by
  have h := extendSchedule_getD_eq_schedule bytes (n := 0) (k := 15 - i) (by omega) (by omega)
  rw [show 15 + 0 - (15 - i) = i by omega, extendSchedule, List.getD_reverse _ (by simp; omega),
    firstScheduleWords_length, show 16 - 1 - (15 - i) = i by omega] at h
  rw [← h, List.getD_eq_getElem _ _ (by simpa using hi)]
  simp [firstScheduleWords]

/-- Every later word is computed from the words before it (R101). -/
theorem schedule_getD_add (bytes : List Byte) {n : Nat} (hn : n < 64) :
    (schedule bytes).getD (16 + n) 0 =
      nextScheduleWord (extendSchedule n (firstScheduleWords bytes).reverse) := by
  have h := extendSchedule_getD_eq_schedule bytes (n := n + 1) (k := 0) (by omega) (by omega)
  rw [extendSchedule_succ, List.getD_cons_zero] at h
  rw [h]
  congr 1
  omega

/-- The recurrence of R101, the words counted from the start of the schedule. -/
theorem schedule_recurrence (bytes : List Byte) {t : Nat} (h16 : 16 ≤ t) (h80 : t < 80) :
    (schedule bytes).getD t 0 =
      rotl ((schedule bytes).getD (t - 3) 0 ^^^ (schedule bytes).getD (t - 8) 0 ^^^
        (schedule bytes).getD (t - 14) 0 ^^^ (schedule bytes).getD (t - 16) 0) 1 := by
  obtain ⟨n, rfl⟩ := Nat.exists_eq_add_of_le h16
  have hback : ∀ k, k < 16 → (extendSchedule n (firstScheduleWords bytes).reverse).getD k 0 =
      (schedule bytes).getD (16 + n - (k + 1)) 0 := by
    intro k hk
    rw [extendSchedule_getD_eq_schedule bytes (by omega) (by omega)]
    congr 1
    omega
  rw [schedule_getD_add bytes (by omega), nextScheduleWord, hback 2 (by omega), hback 7 (by omega),
    hback 13 (by omega), hback 15 (by omega)]

/-- Settles O14: the length, the words of the block, and the recurrence. -/
theorem scheduleFollowsRecurrence : Obligations.ScheduleFollowsRecurrence :=
  fun bytes _ => ⟨schedule_length bytes,
    fun _ hi => schedule_getD_of_lt bytes hi,
    fun _ h16 h80 => schedule_recurrence bytes h16 h80⟩

end Sys2Proof.Machine
end

section
/-! The rounds and the compression they make up (41_compression.md R102, R103, R107 to R110). -/

namespace Sys2Proof.Machine

/-- The rounds are a fold over the round indexes, each round with the word at its index. -/
theorem shaRounds_eq_foldl (t : Nat) (ws : List Word) (k : Working) :
    shaRounds t ws k = (List.range ws.length).foldl (fun r i => shaRound (t + i) (ws.getD i 0) r) k := by
  induction ws generalizing t k with
  | nil => rfl
  | cons w ws ih =>
    rw [shaRounds, ih, List.length_cons, List.range_succ_eq_map, List.foldl_cons, List.foldl_map]
    simp only [List.getD_cons_zero, List.getD_cons_succ, Nat.add_zero, Nat.succ_eq_add_one, Nat.add_right_comm t,
      Nat.add_assoc]

/-- Settles O16: the 80 rounds of `compress` as a fold over the schedule's indexes, from `h` and back into `h`. -/
theorem compressIsEightyRounds : Obligations.CompressIsEightyRounds := by
  intro h bytes _
  have hrounds := shaRounds_eq_foldl 0 (schedule bytes) (loadWorking h)
  simp only [schedule_length, Nat.zero_add] at hrounds
  unfold compress
  exact congrArg (feedForward h) hrounds

/-- The 20 rounds of pass `p` (R103). -/
theorem passOf_eq {t p : Nat} (hlo : 20 * p ≤ t) (hhi : t < 20 * p + 20) : passOf t = p := by
  unfold passOf
  omega

theorem roundMix_roundConstant_of_passOf {t p : Nat} (h : passOf t = p) :
    roundMix t = passMix p ∧ roundConstant t = passConstant p := by
  subst h
  exact ⟨rfl, rfl⟩

/-- Settles O13: the clauses are the passes 0 to 3. -/
theorem roundSelectsPass : Obligations.RoundSelectsPass :=
  fun _ => ⟨fun _ => roundMix_roundConstant_of_passOf (passOf_eq (p := 0) (by omega) (by omega)),
    fun _ => roundMix_roundConstant_of_passOf (passOf_eq (p := 1) (by omega) (by omega)),
    fun _ => roundMix_roundConstant_of_passOf (passOf_eq (p := 2) (by omega) (by omega)),
    fun _ => roundMix_roundConstant_of_passOf (passOf_eq (p := 3) (by omega) (by omega))⟩

/-- Settles O15: the equations of R108 are the fields of `shaRound`. -/
theorem roundEquations : Obligations.RoundEquations :=
  fun _ _ _ => ⟨rfl, rfl, rfl, rfl, rfl⟩

end Sys2Proof.Machine
end

section
/-! The mixing functions bit by bit (41_compression.md R104 to R106). -/

namespace Sys2Proof.Machine

theorem ch_getLsbD (b c d : Word) {i : Nat} (hi : i < 32) :
    (ch b c d).getLsbD i = if b.getLsbD i then c.getLsbD i else d.getLsbD i := by
  rw [ch, BitVec.getLsbD_or, BitVec.getLsbD_and, BitVec.getLsbD_and, BitVec.getLsbD_not]
  cases b.getLsbD i <;> simp [hi]

theorem parity_getLsbD (b c d : Word) (i : Nat) :
    (parity b c d).getLsbD i =
      decide (((b.getLsbD i).toNat + (c.getLsbD i).toNat + (d.getLsbD i).toNat) % 2 = 1) := by
  rw [parity, BitVec.getLsbD_xor, BitVec.getLsbD_xor]
  cases b.getLsbD i <;> cases c.getLsbD i <;> cases d.getLsbD i <;> rfl

theorem maj_getLsbD (b c d : Word) (i : Nat) :
    (maj b c d).getLsbD i =
      decide (2 ≤ (b.getLsbD i).toNat + (c.getLsbD i).toNat + (d.getLsbD i).toNat) := by
  rw [maj, BitVec.getLsbD_or, BitVec.getLsbD_or, BitVec.getLsbD_and, BitVec.getLsbD_and, BitVec.getLsbD_and]
  cases b.getLsbD i <;> cases c.getLsbD i <;> cases d.getLsbD i <;> rfl

/-- Where B has only ones, Ch chooses C (R104). -/
theorem ch_allOnes (c d : Word) : ch (BitVec.allOnes 32) c d = c := by
  rw [ch, BitVec.allOnes_and, BitVec.not_allOnes, BitVec.zero_and, BitVec.or_zero]

/-- Where B has only zeros, Ch chooses D (R104). -/
theorem ch_zero (c d : Word) : ch 0#32 c d = d := by
  rw [ch, BitVec.zero_and, BitVec.not_zero, BitVec.allOnes_and, BitVec.zero_or]

/-- Settles O12: the three bitwise readings, and the corner cases of Ch. -/
theorem mixingFunctionsBitwise : Obligations.MixingFunctionsBitwise :=
  ⟨fun b c d i hi => ⟨ch_getLsbD b c d hi, parity_getLsbD b c d i, maj_getLsbD b c d i⟩,
    fun c d => ⟨ch_allOnes c d, ch_zero c d⟩⟩

end Sys2Proof.Machine
end

section
/-! The padded blocks of FINALIZE as byte lists, and the hash words they give (42_finalize.md R121 to R126). -/

namespace Sys2Proof.Machine

/-! ### What the padding writes -/

/-- A byte after the first `b`, then zeros up to index `n`. -/
theorem map_get_put_putZeros (m : Memory) (v : Byte) {b n : Nat} (hb : b ≤ n) :
    (List.range (n + 1)).map ((m.put b v).putZeros (b + 1) (n + 1)).get =
      (List.range b).map m.get ++ [v] ++ List.replicate (n - b) 0x00#8 := by
  obtain ⟨k, rfl⟩ := Nat.exists_eq_add_of_le hb
  rw [Nat.add_right_comm b k 1, Nat.add_sub_cancel_left]
  have hkept : ∀ a ∈ List.range b, ((m.put b v).putZeros (b + 1) (b + 1 + k)).get a = m.get a := by
    intro a ha
    rw [List.mem_range] at ha
    rw [Memory.get_putZeros, if_neg (by omega), Memory.get_put, if_neg (by omega)]
  have hmarked : ((m.put b v).putZeros (b + 1) (b + 1 + k)).get b = v := by
    rw [Memory.get_putZeros, if_neg (by omega), Memory.get_put, if_pos rfl]
  have hzeros : ∀ j ∈ List.range k, ((m.put b v).putZeros (b + 1) (b + 1 + k)).get (b + 1 + j) = 0x00#8 := by
    intro j hj
    rw [List.mem_range] at hj
    rw [Memory.get_putZeros, if_pos (by omega)]
  rw [List.range_add, List.map_append, List.range_succ, List.map_append, List.map_congr_left hkept,
    List.map_singleton, hmarked, List.map_map, List.map_congr_left (f := _ ∘ _) hzeros, List.map_const',
    List.length_range]

theorem map_get_putZeros_zero (m : Memory) (n : Nat) :
    (List.range n).map (m.putZeros 0 n).get = List.replicate n 0x00#8 := by
  have hzeros : ∀ a ∈ List.range n, (m.putZeros 0 n).get a = 0x00#8 := by
    intro a ha
    rw [Memory.get_putZeros, if_pos ⟨Nat.zero_le a, List.mem_range.1 ha⟩]
  rw [List.map_congr_left hzeros, List.map_const', List.length_range]

/-- The length field stands behind the first 56 bytes, which it leaves as they are (R125). -/
theorem putLength_bytes (m : Memory) (l : DoubleWord) :
    (putLength m l).bytes = (List.range 56).map m.get ++ beBytes64 l := by
  refine Memory.bytes_eq (by simp) fun a ha => ?_
  rw [get_putLength]
  by_cases h : a < 56
  · rw [if_neg (by omega), List.getD_append _ _ _ _ (by simpa using h),
      List.getD_eq_getElem _ _ (by simpa using h)]
    simp
  · rw [if_pos (by omega), List.getD_append_right _ _ _ _ (by simpa using h)]
    simp

/-! ### The final hash words -/

/-- One-block case (R123). -/
theorem finalHash_one {e : DigestState} (hb : e.blockLen.toNat ≤ 55) :
    finalHash e (e.block.put e.blockLen.toNat padMarker) = compress e.h
      ((List.range e.blockLen.toNat).map e.block.get ++ [0x80#8] ++
        List.replicate (55 - e.blockLen.toNat) 0x00#8 ++ beBytes64 e.bitLen) := by
  rw [finalHash, padToLength_one hb]
  simp only [putLength_bytes]
  rw [map_get_put_putZeros e.block padMarker hb, padMarker]

/-- Two-block case (R124). -/
theorem finalHash_two {e : DigestState} (hlo : 56 ≤ e.blockLen.toNat) (hhi : e.blockLen.toNat ≤ 63) :
    finalHash e (e.block.put e.blockLen.toNat padMarker) = compress
      (compress e.h
        ((List.range e.blockLen.toNat).map e.block.get ++ [0x80#8] ++
          List.replicate (63 - e.blockLen.toNat) 0x00#8))
      (List.replicate 56 0x00#8 ++ beBytes64 e.bitLen) := by
  rw [finalHash, padToLength_two hlo]
  simp only [putLength_bytes, map_get_putZeros_zero]
  rw [Memory.bytes, blockSize, map_get_put_putZeros e.block padMarker hhi, padMarker]

/-- Settles O29: FINALIZE leaves `finalHash` in `h`, and the two cases are the two it is computed by. -/
theorem finalizePadsAndCompresses : Obligations.FinalizePadsAndCompresses := by
  intro s hs
  refine ⟨fun hb => ?_, fun hlo hhi => ?_⟩
  · obtain ⟨hw, hfinal, hexec⟩ := execFinalize_active hs (by omega)
    exact ⟨_, hexec, hfinal.trans (finalHash_one hb)⟩
  · obtain ⟨hw, hfinal, hexec⟩ := execFinalize_active hs (by omega)
    exact ⟨_, hexec, hfinal.trans (finalHash_two hlo hhi)⟩

end Sys2Proof.Machine
end

section
/-! The digest of FINALIZE, byte by byte and word by word (42_finalize.md R127). -/

namespace Sys2Proof.Machine

theorem project_getD_toNat (h : HashWords) {i : Nat} (hi : i < 20) :
    ((project h).getD i 0).toNat = (h.get (i / 4)).toNat / 2 ^ (8 * (3 - i % 4)) % 2 ^ 8 := by
  rw [List.getD_eq_getElem _ _ (by simpa using hi), project_getElem, extractByte_toNat]

/-- The digest is the five hash words, each big-endian (R45). -/
theorem project_eq_beBytes32_append (h : HashWords) :
    project h = beBytes32 h.h0 ++ beBytes32 h.h1 ++ beBytes32 h.h2 ++ beBytes32 h.h3 ++ beBytes32 h.h4 := rfl

/-- Settles O30: the digest is `project` of the hash words that stay in `h`; the rest is what CLEAR() writes (R128). -/
theorem finalizeRespondsDigest : Obligations.FinalizeRespondsDigest := by
  intro s hs hb
  obtain ⟨hw, -, hexec⟩ := execFinalize_active hs (by omega)
  exact ⟨_, project hw, hexec, rfl, project_length hw,
    fun _ hi => project_getD_toNat hw hi,
    project_eq_beBytes32_append hw,
    rfl, rfl, rfl, rfl, rfl⟩

end Sys2Proof.Machine
end

section
/-! The decoder and the encoder, and the numbers of the codes (30_encoding.md R60 to R67). -/

namespace Sys2Proof

@[simp] theorem Command.rsv_headerOf (op : BitVec 2) (payload : List Byte) :
    (⟨headerOf op, payload⟩ : Command).rsv = 0#6 :=
  BitVec.extractLsb'_append_eq_left

@[simp] theorem Command.op_headerOf (op : BitVec 2) (payload : List Byte) :
    (⟨headerOf op, payload⟩ : Command).op = op :=
  BitVec.extractLsb'_append_eq_right

theorem decode_encode (i : Instr) : decode (encode i) = .ok i := by
  cases i <;> simp [decode, encode]

/-- The header byte is its two fields, RSV above OP (R60). -/
theorem Command.header_eq_rsv_append_op (c : Command) : c.header = c.rsv ++ c.op := by
  rw [Command.rsv, Command.op, BitVec.extractLsb'_append_extractLsb'_eq_extractLsb' (by rfl), BitVec.extractLsb'_eq_self]

/-- With RSV zero the header byte is determined by OP. -/
theorem Command.header_eq_headerOf {c : Command} {op : BitVec 2} (hrsv : c.rsv = 0#6) (hop : c.op = op) :
    c.header = headerOf op := by
  rw [c.header_eq_rsv_append_op, hrsv, hop, headerOf]

/-- A command is admitted only as the command of the instruction it decodes to. -/
theorem encode_of_decode_ok {c : Command} {i : Instr} (h : decode c = .ok i) : encode i = c := by
  obtain ⟨header, payload⟩ := c
  unfold decode at h
  split at h
  case isTrue => cases h
  case isFalse hrsv =>
    have hheader (op) := Command.header_eq_headerOf (op := op) (not_not.1 hrsv)
    simp only at hheader h
    split_ifs at h with h0 hp h1 h2 hp <;> cases h
    · rw [encode, hp, hheader _ h0]
    · rw [encode, hheader _ h1]
    · rw [encode, hp, hheader _ h2]

/-- Settles O2: the decoder finds the fields the encoder put in the header byte; a decoded command has RSV zero, so OP
and the payload fix it. -/
theorem decodeEncodeInverse : Obligations.DecodeEncodeInverse :=
  ⟨decode_encode, fun _ _ h => encode_of_decode_ok h⟩

/-- Settles O1: fixed words, and the encoder's three header bytes. -/
theorem specHeaderBytesDecode : Obligations.SpecHeaderBytesDecode := by
  refine ⟨rfl, rfl, rfl, rfl, ?_, ?_, ?_, ?_, rfl, fun _ => rfl, rfl⟩ <;> decide

/-- The commands with a meaning, by their header bytes and payloads (R61 to R64). -/
theorem decode_ok_iff (c : Command) :
    (∃ i, decode c = .ok i) ↔
      (c.header = 0x00#8 ∧ c.payload = []) ∨ c.header = 0x01#8 ∨ (c.header = 0x02#8 ∧ c.payload = []) := by
  constructor
  · rintro ⟨i, hi⟩
    rw [← encode_of_decode_ok hi]
    cases i with
    | init => exact .inl ⟨rfl, rfl⟩
    | update data => exact .inr (.inl rfl)
    | finalize => exact .inr (.inr ⟨rfl, rfl⟩)
  · obtain ⟨header, payload⟩ := c
    rintro (⟨rfl, rfl⟩ | rfl | ⟨rfl, rfl⟩)
    · exact ⟨.init, decode_encode .init⟩
    · exact ⟨.update payload, decode_encode (.update payload)⟩
    · exact ⟨.finalize, decode_encode .finalize⟩

end Sys2Proof

namespace Sys2Proof.Machine

/-- No instruction is refused: every row of the table has a meaning. -/
theorem exec_not_refused (i : Instr) (s : State) (r : Refusal) : exec i s ≠ .refused r := by
  cases i with
  | init => simp [exec, execInit]
  | update data => exact execUpdate_not_refused data s r
  | finalize => exact execFinalize_not_refused s r

/-- Settles O3: a step runs a command that decodes and refuses one that does not; `decode_ok_iff` says which decode. -/
theorem reservedCommandsAreRefused : Obligations.ReservedCommandsAreRefused := by
  intro s c rest hp
  rw [← decode_ok_iff]
  refine ⟨fun hok => ⟨hok, fun r => ?_⟩, fun hreserved => ?_⟩
  · obtain ⟨i, hi⟩ := hok
    rw [step_command hp hi]
    exact exec_not_refused i _ r
  · cases hd : decode c with
    | ok i => exact absurd ⟨i, hd⟩ hreserved
    | error r => exact ⟨r, step_rejected hp hd⟩

theorem statusOfCode_code (st : Status) : statusOfCode st.code = some st := by
  cases st <;> rfl

/-- Settles O4: each number is read off its definition. -/
theorem resultAndStatusNumbers : Obligations.ResultAndStatusNumbers :=
  ⟨fun _ => (by decide : 0#6 ++ 0#2 = 0x00#8), fun _ => (by decide : 0#6 ++ 1#2 = 0x01#8),
    fun _ => (by decide : 0#6 ++ 2#2 = 0x02#8), fun _ => (by decide : 0#6 ++ 3#2 = 0x03#8),
    rfl, rfl, rfl, rfl, statusOfCode_code⟩

end Sys2Proof.Machine
end

section
/-! Steps that run a command, rest or reset the engine, and the state that reset and INIT leave (20_memory.md R48, R50,
70_reset_and_hazards.md R160, 40_init_update.md R80). -/

namespace Sys2Proof.Machine

/-- Settles O5: `step_command`, whose state is the one with the event taken off the list. -/
theorem stepRunsDecodedCommand : Obligations.StepRunsDecodedCommand :=
  fun _ _ _ _ hp hd => step_command hp hd

/-- Settles O6: the resting case of a step (log 2). -/
theorem stepWithoutEventRests : Obligations.StepWithoutEventRests :=
  fun _ hp => step_none hp

/-- INIT completes in every state and leaves the engine's reset state (R80, R160). -/
theorem exec_init (s : State) :
    exec .init s = .next ((s.withEngine DigestState.reset).respond .ok none) := rfl

/-- Settles O7: the reset values, which are also those that INIT writes. -/
theorem resetLeavesInitialState : Obligations.ResetLeavesInitialState := by
  refine ⟨rfl, Memory.get_zeros, rfl, rfl, rfl, rfl, fun s t h => ?_⟩
  rw [exec_init, Host.Outcome.next.injEq] at h
  rw [← h]
  rfl

/-- Settles O8: both forms of the event are a hardware reset of the state without it. -/
theorem resetEventGivesResetStateSilently : Obligations.ResetEventGivesResetStateSilently := by
  rintro s rest (hp | ⟨c, i, hp, hd⟩)
  · exact step_reset hp
  · exact step_resetDuring hp hd

/-- Settles O9: INIT leaves the reset engine, whatever it started from. -/
theorem initRebuildsEveryField : Obligations.InitRebuildsEveryField := by
  intro s
  refine ⟨_, exec_init s, rfl, Memory.get_zeros, rfl, rfl, rfl, rfl, rfl, rfl, fun t' h => ?_⟩
  rw [exec_init, Host.Outcome.next.injEq] at h
  rw [← h]
  rfl

/-- Settles O32: the reset engine is coherent, and nothing has been responded yet. -/
theorem resetStateHasInvariant : Obligations.ResetStateHasInvariant :=
  ⟨DigestState.coherent_reset, by simp [State.reset]⟩

end Sys2Proof.Machine
end

section
/-! What an engine that is not ACTIVE answers (60_exceptions.md R143 to R145), and the commands on an ACTIVE engine that
absorb nothing or stop. -/

namespace Sys2Proof.Machine

/-- A CORRUPTED engine answers every command but INIT with its stored error and writes nothing (R144, R145). -/
theorem exec_of_corrupted {s : State} (hs : s.engine.status = .corrupted) {i : Instr} (hi : i ≠ .init) :
    exec i s = .next (s.respond s.engine.cerr none) := by
  cases i with
  | init => exact absurd rfl hi
  | update data => exact checkStatus_corrupted hs _
  | finalize => exact checkStatus_corrupted hs _

/-- A FINALIZED engine fails every command but INIT with STATE_ERROR (R143). -/
theorem exec_of_finalized {s : State} (hs : s.engine.status = .finalized) {i : Instr} (hi : i ≠ .init) :
    exec i s = .next (s.fail .stateError) := by
  cases i with
  | init => exact absurd rfl hi
  | update data => exact checkStatus_finalized hs _
  | finalize => exact checkStatus_finalized hs _

/-- Settles O19: `fail` by its definition, and the sticky error by the status check. -/
theorem failStoresErrorAndSticks : Obligations.FailStoresErrorAndSticks :=
  ⟨fun _ _ => rfl, fun _ hs => ⟨fun _ => exec_of_corrupted hs (by simp), exec_of_corrupted hs (by simp)⟩⟩

/-- Settles O20: both commands fail at the status check. -/
theorem finalizedEngineFailsWithStateError : Obligations.FinalizedEngineFailsWithStateError :=
  fun _ hs => ⟨fun _ => exec_of_finalized hs (by simp), exec_of_finalized hs (by simp)⟩

/-- Settles O23: an empty payload is absorbed whole by an ACTIVE engine as it stands. -/
theorem emptyUpdateOnActiveEngine : Obligations.EmptyUpdateOnActiveEngine :=
  fun _ hs => execUpdate_of_absorbAll_done hs rfl

/-- A bad index at the first byte stops the whole payload. -/
theorem absorbAll_cons_badIndex {x : Byte} {xs : List Byte} {e : DigestState} (h : absorb x e = .badIndex) :
    absorbAll (x :: xs) e = .badIndex := by
  rw [absorbAll, h]

/-- Settles O21: past the check of the status both commands would store at an index that does not exist. -/
theorem badBlockLenFaults : Obligations.BadBlockLenFaults := by
  intro s hs hb
  refine ⟨?_, fun x xs hl => ?_⟩
  · rw [exec, execFinalize, checkStatus_active hs, Memory.store_eq_none.2 hb, finishFinalize]
  · rw [exec, execUpdate, checkStatus_active hs, absorbAll_cons_badIndex (absorb_badIndex hl hb), finishUpdate]

/-- Settles O31: FINALIZE clears the buffer (R128). -/
theorem finalizeClearsBlock : Obligations.FinalizeClearsBlock := by
  intro s hs hb
  obtain ⟨hw, -, hexec⟩ := execFinalize_active hs (by omega)
  exact ⟨_, hexec, Memory.get_zeros⟩

end Sys2Proof.Machine
end

section
/-! The round pipeline computes the rounds of COMPRESS (41_compression.md R110, R111). -/

namespace Sys2Proof.Machine

/-- Settles O17: the 80 rounds are evaluated by the kernel. -/
theorem compressOfZeroBlock : Obligations.CompressOfZeroBlock := by
  unfold Obligations.CompressOfZeroBlock
  decide +kernel

/-- Which schedule word stands at place `k` of the window before round `t`: the `t` newest are those already used, newest
first, and behind them stand the block's words that are still to turn round. -/
def windowIndex (t k : Nat) : Nat := if k < t then t - 1 - k else 15 + t - k

theorem windowIndex_succ (t k : Nat) : windowIndex (t + 1) (k + 1) = windowIndex t k := by
  unfold windowIndex
  split_ifs <;> omega

/-- The pipeline before round `t` of the compression of `bytes` from `h`: the window is a cut of the schedule, and the
working registers are those after the rounds so far. -/
structure RoundPipe.InStepWith (p : RoundPipe) (h : HashWords) (bytes : List Byte) (t : Nat) : Prop where
  round  : p.t = t
  work   : p.work = (List.range t).foldl (fun k j => shaRound j ((schedule bytes).getD j 0) k) (loadWorking h)
  window : ∀ k, k < 16 → p.window.getD k 0 = (schedule bytes).getD (windowIndex t k) 0

theorem RoundPipe.start_inStepWith (h : HashWords) (bytes : List Byte) :
    (RoundPipe.start h bytes).InStepWith h bytes 0 where
  round  := rfl
  work   := rfl
  window := fun _ hk => extendSchedule_getD_eq_schedule bytes (n := 0) (Nat.zero_le _) hk

/-- The word of the next round is its word of the schedule (R100, R101). -/
theorem RoundPipe.InStepWith.word {p : RoundPipe} {h : HashWords} {bytes : List Byte} {t : Nat}
    (hp : p.InStepWith h bytes t) (ht : t < 80) : p.word = (schedule bytes).getD t 0 := by
  rw [RoundPipe.word, hp.round]
  split_ifs with h16
  · rw [hp.window 15 (by omega), windowIndex, if_neg (by omega)]
    congr 1
    omega
  · have hback : ∀ k, k < 16 → p.window.getD k 0 = (schedule bytes).getD (t - (k + 1)) 0 := by
      intro k hk
      rw [hp.window k hk, windowIndex, if_pos (by omega)]
      congr 1
      omega
    rw [nextScheduleWord, hback 2 (by omega), hback 7 (by omega), hback 13 (by omega), hback 15 (by omega),
      schedule_recurrence bytes (by omega) ht]

/-- One step of the pipeline is one round, and the window moves on by one word. -/
theorem RoundPipe.InStepWith.step {p : RoundPipe} {h : HashWords} {bytes : List Byte} {t : Nat}
    (hp : p.InStepWith h bytes t) (ht : t < 80) : p.step.InStepWith h bytes (t + 1) where
  round  := congrArg (· + 1) hp.round
  work   := by
    rw [List.range_succ, List.foldl_append, ← hp.work, RoundPipe.step, hp.round, hp.word ht]
    rfl
  window := by
    intro k hk
    cases k with
    | zero => exact hp.word ht
    | succ k =>
      rw [windowIndex_succ, ← hp.window k (by omega), RoundPipe.step, List.getD_cons_succ]
      simp [List.getD_eq_getElem?_getD, List.getElem?_take_of_lt (show k < 15 by omega)]

theorem RoundPipe.steps_inStepWith (h : HashWords) (bytes : List Byte) {n : Nat} (hn : n ≤ 80) :
    (RoundPipe.steps n (RoundPipe.start h bytes)).InStepWith h bytes n := by
  induction n with
  | zero => exact RoundPipe.start_inStepWith h bytes
  | succ n ih =>
    rw [RoundPipe.steps_succ]
    exact (ih (by omega)).step hn

/-- Settles O18: after 80 steps the working registers are those of the 80 rounds, and both feed them into `h`. -/
theorem pipelineEqualsCompress : Obligations.PipelineEqualsCompress := by
  intro h bytes
  have hrounds := shaRounds_eq_foldl 0 (schedule bytes) (loadWorking h)
  simp only [schedule_length, Nat.zero_add] at hrounds
  unfold compressPipelined compress
  rw [(RoundPipe.steps_inStepWith h bytes (Nat.le_refl 80)).work, hrounds]

end Sys2Proof.Machine
end

section
/-! The one response of each command, and the status it leaves (30_encoding.md R65, 60_exceptions.md R141, R144 to R147). -/

namespace Sys2Proof.Machine

/-- Settles O37: the cases of the inversion lemmas are the entries of the table. -/
theorem statusTransitionTable : Obligations.StatusTransitionTable := by
  intro s t i h
  cases i with
  | init =>
    rw [exec_init, Host.Outcome.next.injEq] at h
    subst h
    exact ⟨.ok, none, rfl, by cases s.engine.status <;> exact ⟨rfl, rfl, rfl⟩⟩
  | update data =>
    rcases execUpdate_next h with ⟨hs, rfl⟩ | ⟨hs, rfl⟩ | ⟨hs, e, he, rfl⟩ | ⟨hs, e, he, rfl⟩ <;> rw [hs]
    · exact ⟨_, none, rfl, rfl, rfl⟩
    · exact ⟨_, none, rfl, rfl, rfl, rfl⟩
    · obtain ⟨hstatus, hcerr⟩ := absorbAll_done_status_cerr he
      exact ⟨_, none, rfl, .inl ⟨hstatus.trans hs, hcerr, rfl⟩⟩
    · exact ⟨_, none, rfl, .inr ⟨rfl, rfl, rfl⟩⟩
  | finalize =>
    rcases execFinalize_next h with ⟨hs, rfl⟩ | ⟨hs, rfl⟩ | ⟨hs, -, hw, -, rfl⟩ <;> rw [hs]
    · exact ⟨_, none, rfl, rfl, rfl⟩
    · exact ⟨_, none, rfl, rfl, rfl, rfl⟩
    · exact ⟨_, some (project hw), rfl, rfl, rfl, rfl⟩

/-! ### The responses so far -/

/-- A step gives no response or one, after those there. -/
theorem step_responses {s t : State} (h : step s = .next t) :
    t.responses = s.responses ∨ ∃ r, t.responses = s.responses ++ [r] := by
  rcases step_next h with ⟨-, rfl⟩ | ⟨rest, rfl, -⟩ | ⟨c, i, rest, -, -, hexec⟩
  · exact .inl rfl
  · exact .inl rfl
  · obtain ⟨code, d, hresponses, -⟩ := statusTransitionTable _ _ _ hexec
    exact .inr ⟨⟨code, d⟩, hresponses⟩

/-- A run that answers a next state takes its first step and runs on from there. -/
theorem run_succ_eq_next {n : Nat} {s t : State} :
    run (n + 1) s = .next t ↔ ∃ s', step s = .next s' ∧ run n s' = .next t := by
  cases h : step s <;> simp [run, h]

/-- Settles O38, by induction on the number of steps. -/
theorem responsesOnlyGrow : Obligations.ResponsesOnlyGrow := by
  intro n s t h
  induction n generalizing s with
  | zero => cases h; simp
  | succ n ih =>
    obtain ⟨s', hstep, hrun⟩ := run_succ_eq_next.1 h
    obtain ⟨hprefix, hlength⟩ := ih s' hrun
    rcases step_responses hstep with hr | ⟨r, hr⟩ <;> rw [hr] at hprefix hlength
    · exact ⟨hprefix, by omega⟩
    · rw [List.length_append, List.length_singleton] at hlength
      exact ⟨(List.prefix_append _ _).trans hprefix, by omega⟩

/-! ### The form of a response -/

theorem Response.resultByte_rsv (r : Response) : r.resultByte.extractLsb' 2 6 = 0#6 :=
  BitVec.extractLsb'_append_eq_left

theorem Response.resultByte_code (r : Response) : r.resultByte.extractLsb' 0 2 = r.result.code :=
  BitVec.extractLsb'_append_eq_right

/-- Where a CORRUPTED engine has an error stored, a digest stands exactly in the OK of a FINALIZE; INIT responds OK. -/
theorem exec_response {i : Instr} {s t : State} (hc : s.engine.status = .corrupted → s.engine.cerr ≠ .ok)
    (h : exec i s = .next t) :
    ∃ r, t.responses = s.responses ++ [r] ∧ (r.digest.isSome ↔ i = .finalize ∧ r.result = .ok) ∧
      (i = .init → r.result = .ok) := by
  cases i with
  | init =>
    rw [exec_init, Host.Outcome.next.injEq] at h
    subst h
    exact ⟨⟨.ok, none⟩, rfl, by simp, fun _ => rfl⟩
  | update data =>
    rcases execUpdate_next h with ⟨-, rfl⟩ | ⟨-, rfl⟩ | ⟨-, e, -, rfl⟩ | ⟨-, e, -, rfl⟩ <;>
      exact ⟨⟨_, none⟩, rfl, by simp, by simp⟩
  | finalize =>
    rcases execFinalize_next h with ⟨hs, rfl⟩ | ⟨-, rfl⟩ | ⟨-, -, hw, -, rfl⟩
    · exact ⟨⟨_, none⟩, rfl, by simp [hc hs], by simp⟩
    · exact ⟨⟨_, none⟩, rfl, by simp, by simp⟩
    · exact ⟨⟨_, some (project hw)⟩, rfl, by simp, by simp⟩

/-- The error stored in a CORRUPTED engine is one (R25). -/
theorem DigestState.Coherent.cerr_ne_ok {e : DigestState} (h : e.Coherent) (hs : e.status = .corrupted) :
    e.cerr ≠ .ok := by
  rcases h.storedError hs with hc | hc <;> simp [hc]

/-- Settles O35: the command completes because `block_len` is in range; its response is legal because the invariant holds
afterwards. -/
theorem everyAdmittedCommandRespondsOnce : Obligations.EveryAdmittedCommandRespondsOnce := by
  intro s c i rest hinv hp hd
  have hinv' : (s.withPending rest).Inv := hinv.withPending rest
  obtain ⟨t, ht⟩ := exec_completes i (Nat.lt_succ_of_le hinv'.engine.blockLenInRange)
  obtain ⟨r, hr, hdigest, hinit⟩ := exec_response hinv'.engine.cerr_ne_ok ht
  have hlegal : r.Legal := (exec_keeps_inv hinv' ht).responses r (by simp [hr])
  exact ⟨t, r, (step_command hp hd).trans ht, exec_pending ht, hr, r.resultByte_rsv, r.resultByte_code,
    hlegal.notNullInput, hdigest, fun d hsome => (hlegal.digestForm d hsome).2, hinit⟩

/-- Settles O36: a resting step keeps the engine, and so does a command other than INIT, but for the move to CORRUPTED of
a FINALIZED one. -/
theorem onlyInitAndResetReviveEngine : Obligations.OnlyInitAndResetReviveEngine := by
  intro s t hs hstep
  rcases step_next hstep with ⟨-, rfl⟩ | ⟨rest, -, hp⟩ | ⟨c, i, rest, hp, hd, hexec⟩
  · exact .inr (.inr ⟨hs, fun hcorrupted => ⟨hcorrupted, rfl⟩, rfl, rfl, rfl, rfl⟩)
  · exact .inr (.inl ⟨rest, hp.imp_right fun ⟨c, _, hc, _⟩ => ⟨c, hc⟩⟩)
  · by_cases hi : i = .init
    · exact .inl ⟨c, rest, hp, hi ▸ hd⟩
    · refine .inr (.inr ?_)
      cases hstatus : s.engine.status with
      | active => exact absurd hstatus hs
      | finalized =>
        rw [exec_of_finalized (s := s.withPending rest) hstatus hi, Host.Outcome.next.injEq] at hexec
        subst hexec
        exact ⟨by simp, by simp, rfl, rfl, rfl, rfl⟩
      | corrupted =>
        rw [exec_of_corrupted (s := s.withPending rest) hstatus hi, Host.Outcome.next.injEq] at hexec
        subst hexec
        exact ⟨hs, fun _ => ⟨hstatus, rfl⟩, rfl, rfl, rfl, rfl⟩

end Sys2Proof.Machine
end

section
/-! What the host cannot see: two engines that answer alike (60_exceptions.md R144, R147, 10_state.md R29). -/

namespace Sys2Proof.Machine

/-! ### Alike outcomes -/

/-- Two machines with the same events to come and the same responses so far, whose engines are related by `E`. -/
structure State.Alike (E : DigestState → DigestState → Prop) (s t : State) : Prop where
  engine    : E s.engine t.engine
  pending   : s.pending = t.pending
  responses : s.responses = t.responses

theorem State.Alike.eq {s t : State} (h : s.Alike Eq t) : s = t := by
  obtain ⟨hengine, hpending, hresponses⟩ := h
  cases s
  cases t
  simp_all

/-- Two outcomes that answer alike machines, or stop for the same reason. -/
inductive OutcomesAlike (E : DigestState → DigestState → Prop) :
    Host.Outcome State Fault Refusal → Host.Outcome State Fault Refusal → Prop
  | next {s t : State} (h : s.Alike E t) : OutcomesAlike E (.next s) (.next t)
  | fault (r : Fault) : OutcomesAlike E (.fault r) (.fault r)
  | refused (r : Refusal) : OutcomesAlike E (.refused r) (.refused r)

section
variable {E : DigestState → DigestState → Prop}

theorem OutcomesAlike.of_eq (hE : ∀ e, E e e) (o : Host.Outcome State Fault Refusal) : OutcomesAlike E o o := by
  cases o with
  | next s => exact .next ⟨hE _, rfl, rfl⟩
  | fault r => exact .fault r
  | refused r => exact .refused r

theorem State.Alike.withPending {s t : State} (h : s.Alike E t) (p : List HostEvent) :
    (s.withPending p).Alike E (t.withPending p) :=
  ⟨h.engine, rfl, h.responses⟩

theorem State.Alike.withEngine {s t : State} (h : s.Alike E t) {e f : DigestState} (he : E e f) :
    (s.withEngine e).Alike E (t.withEngine f) :=
  ⟨he, h.pending, h.responses⟩

theorem State.Alike.respond {s t : State} (h : s.Alike E t) (c : ResultCode) (d : Option (List Byte)) :
    (s.respond c d).Alike E (t.respond c d) :=
  ⟨h.engine, h.pending, by simp [h.responses]⟩

theorem exec_init_alike (hreset : E DigestState.reset DigestState.reset) {s t : State} (h : s.Alike E t) :
    OutcomesAlike E (exec .init s) (exec .init t) :=
  .next ((h.withEngine hreset).respond .ok none)

/-- If every instruction keeps alike machines alike, so does a step. -/
theorem step_alike (hreset : E DigestState.reset DigestState.reset)
    (hexec : ∀ i s t, s.Alike E t → OutcomesAlike E (exec i s) (exec i t)) {s t : State} (h : s.Alike E t) :
    OutcomesAlike E (step s) (step t) := by
  cases hp : s.pending with
  | nil =>
    rw [step_none hp, step_none (h.pending.symm.trans hp)]
    exact .next h
  | cons ev rest =>
    rw [step_event hp, step_event (h.pending.symm.trans hp)]
    have hrest := h.withPending rest
    have hafterReset : (hardwareReset (s.withPending rest)).Alike E (hardwareReset (t.withPending rest)) :=
      hrest.withEngine hreset
    cases ev with
    | reset => exact .next hafterReset
    | command c =>
      rw [runEvent, runEvent, runCommand, runCommand]
      cases decode c with
      | ok i => exact hexec i _ _ hrest
      | error r => exact .refused _
    | resetDuring c =>
      rw [runEvent, runEvent, abandonCommand, abandonCommand]
      cases decode c with
      | ok i => exact .next hafterReset
      | error r => exact .refused _

/-- If every instruction keeps alike machines alike, the host observes the same of their runs. -/
theorem observe_run_eq_of_alike (hreset : E DigestState.reset DigestState.reset)
    (hexec : ∀ i s t, s.Alike E t → OutcomesAlike E (exec i s) (exec i t)) {s t : State} (h : s.Alike E t)
    (n : Nat) : observe (run n s) = observe (run n t) := by
  refine observe_run_eq_of_simulation (R := State.Alike E) (fun s t h => h.responses) (fun s t h => ?_) n h
  have halike := step_alike hreset hexec h
  generalize step s = o, step t = p at halike ⊢
  cases halike with
  | next h' => exact .inl ⟨_, _, rfl, rfl, h'⟩
  | fault r => exact .inr (.inl ⟨r, rfl, rfl⟩)
  | refused r => exact .inr (.inr ⟨r, rfl, rfl⟩)

end

/-! ### Engines that only repeat an error -/

/-- The result code that an engine gives to every UPDATE and FINALIZE, if its status fixes one (R143 to R145). -/
def DigestState.fixedAnswer (e : DigestState) : Option ResultCode :=
  match e.status with
  | .active    => none
  | .finalized => some .stateError
  | .corrupted => some e.cerr

theorem DigestState.fixedAnswer_of_finalized {e : DigestState} (h : e.status = .finalized) :
    e.fixedAnswer = some .stateError := by
  rw [fixedAnswer, h]

theorem DigestState.fixedAnswer_of_corrupted {e : DigestState} (h : e.status = .corrupted) :
    e.fixedAnswer = some e.cerr := by
  rw [fixedAnswer, h]

/-- Such an engine gives its answer to every command but INIT, and keeps it. -/
theorem exec_of_fixedAnswer {s : State} {c : ResultCode} (hs : s.engine.fixedAnswer = some c) {i : Instr}
    (hi : i ≠ .init) :
    ∃ e, e.fixedAnswer = some c ∧ exec i s = .next ((s.withEngine e).respond c none) := by
  cases hstatus : s.engine.status with
  | active => simp [DigestState.fixedAnswer, hstatus] at hs
  | finalized =>
    rw [DigestState.fixedAnswer_of_finalized hstatus, Option.some.injEq] at hs
    subst hs
    exact ⟨s.engine.corrupt .stateError, rfl, exec_of_finalized hstatus hi⟩
  | corrupted =>
    have hanswer := hs
    rw [DigestState.fixedAnswer_of_corrupted hstatus, Option.some.injEq] at hs
    subst hs
    exact ⟨s.engine, hanswer, exec_of_corrupted hstatus hi⟩

/-- The same engine, or two that give the same answer to every UPDATE and FINALIZE. -/
def DigestState.AnswersLike (e f : DigestState) : Prop :=
  e = f ∨ ∃ c, e.fixedAnswer = some c ∧ f.fixedAnswer = some c

theorem DigestState.AnswersLike.refl (e : DigestState) : e.AnswersLike e := .inl rfl

theorem exec_answersLike (i : Instr) (s t : State) (h : s.Alike DigestState.AnswersLike t) :
    OutcomesAlike DigestState.AnswersLike (exec i s) (exec i t) := by
  by_cases hi : i = .init
  · subst hi
    exact exec_init_alike (.refl _) h
  · rcases h.engine with heq | ⟨c, hs, ht⟩
    · have hst : s.Alike Eq t := ⟨heq, h.pending, h.responses⟩
      rw [hst.eq]
      exact .of_eq .refl _
    · obtain ⟨e, he, hexec⟩ := exec_of_fixedAnswer hs hi
      obtain ⟨f, hf, hexec'⟩ := exec_of_fixedAnswer ht hi
      rw [hexec, hexec']
      exact .next ((h.withEngine (.inr ⟨c, he, hf⟩)).respond c none)

/-- Two machines whose engines give the same answer to every UPDATE and FINALIZE cannot be told apart. -/
theorem observe_run_eq_of_fixedAnswer {s t : State} {c : ResultCode} (hs : s.engine.fixedAnswer = some c)
    (ht : t.engine.fixedAnswer = some c) (hp : s.pending = t.pending) (hr : s.responses = t.responses) (n : Nat) :
    observe (run n s) = observe (run n t) :=
  observe_run_eq_of_alike (.refl _) exec_answersLike ⟨.inr ⟨c, hs, ht⟩, hp, hr⟩ n

/-- Settles O39: both engines answer with the stored error. -/
theorem storedErrorHidesState : Obligations.StoredErrorHidesState :=
  fun _ _ hs ht hcerr => observe_run_eq_of_fixedAnswer
    (hcerr ▸ DigestState.fixedAnswer_of_corrupted hs) (DigestState.fixedAnswer_of_corrupted ht)

/-- Settles O40: both engines answer with STATE_ERROR. -/
theorem finalizedLooksLikeStateError : Obligations.FinalizedLooksLikeStateError :=
  fun _ _ hs ht hcerr => observe_run_eq_of_fixedAnswer
    (DigestState.fixedAnswer_of_finalized hs) (hcerr ▸ DigestState.fixedAnswer_of_corrupted ht)

/-! ### Engines that differ in stale bytes of the block -/

theorem DigestState.AgreeToBlockLen.refl (e : DigestState) : e.AgreeToBlockLen e :=
  ⟨rfl, rfl, rfl, rfl, rfl, fun _ _ => rfl⟩

theorem DigestState.AgreeToBlockLen.corrupt {e f : DigestState} (h : e.AgreeToBlockLen f) (c : ResultCode) :
    (e.corrupt c).AgreeToBlockLen (f.corrupt c) :=
  ⟨h.h, h.blockLen, h.bitLen, rfl, rfl, h.block⟩

theorem DigestState.AgreeToBlockLen.cleared {e f : DigestState} (h : e.AgreeToBlockLen f) (hw : HashWords) :
    (e.cleared hw).AgreeToBlockLen (f.cleared hw) :=
  ⟨rfl, rfl, rfl, rfl, h.cerr, fun _ _ => rfl⟩

/-- Two ways to absorb that come to the same, on engines that agree. -/
inductive AbsorbedAlike : Absorbed → Absorbed → Prop
  | done {e f : DigestState} (h : e.AgreeToBlockLen f) : AbsorbedAlike (.done e) (.done f)
  | overflow {e f : DigestState} (h : e.AgreeToBlockLen f) : AbsorbedAlike (.overflow e) (.overflow f)
  | badIndex : AbsorbedAlike .badIndex .badIndex

/-- The byte written is the first stale one, so a block that fills holds no stale byte when it is compressed. -/
theorem DigestState.AgreeToBlockLen.of_absorb_done {x : Byte} {e f e' f' : DigestState} (h : e.AgreeToBlockLen f)
    (he : absorb x e = .done e') (hf : absorb x f = .done f') : e'.AgreeToBlockLen f' := by
  obtain ⟨-, hlt, hblock, hblockLen, hbitLen, hstatus, hcerr, hh⟩ := absorb_done_fields he
  obtain ⟨-, -, hblock', hblockLen', hbitLen', hstatus', hcerr', hh'⟩ := absorb_done_fields hf
  rw [← h.blockLen] at hblock' hblockLen' hh'
  have hput : ∀ a, a < e.blockLen.toNat + 1 →
      (e.block.put e.blockLen.toNat x).get a = (f.block.put e.blockLen.toNat x).get a := by
    intro a ha
    rw [Memory.get_put, Memory.get_put]
    split_ifs with hx
    · rfl
    · exact h.block a (by omega)
  refine ⟨?_, BitVec.eq_of_toNat_eq (hblockLen.trans hblockLen'.symm), BitVec.eq_of_toNat_eq ?_,
    by rw [hstatus, hstatus', h.status], by rw [hcerr, hcerr', h.cerr], fun a ha => ?_⟩
  · rw [hh, hh', h.h]
    split_ifs with hfull
    · rw [hfull] at hput
      rw [Memory.bytes_congr hput]
    · rfl
  · rw [hbitLen, hbitLen', h.bitLen]
  · rw [hblock, hblock']
    exact hput a (by omega)

theorem absorb_alike (x : Byte) {e f : DigestState} (h : e.AgreeToBlockLen f) :
    AbsorbedAlike (absorb x e) (absorb x f) := by
  rcases absorb_cases x e with ⟨ho, he⟩ | ⟨hl, hb, he⟩ | ⟨hl, hb, he⟩
  · rw [he, absorb_overflow (h.bitLen ▸ ho)]
    exact .overflow h
  · rw [he, absorb_badIndex (h.bitLen ▸ hl) (h.blockLen ▸ hb)]
    exact .badIndex
  · have hf := absorb_done (x := x) (h.bitLen ▸ hl) (h.blockLen ▸ hb)
    have hagree := h.of_absorb_done he hf
    rw [he, hf]
    exact .done hagree

theorem absorbAll_alike (data : List Byte) {e f : DigestState} (h : e.AgreeToBlockLen f) :
    AbsorbedAlike (absorbAll data e) (absorbAll data f) := by
  induction data generalizing e f with
  | nil => exact .done h
  | cons x xs ih =>
    have hx := absorb_alike x h
    rw [absorbAll, absorbAll]
    generalize absorb x e = a, absorb x f = b at hx ⊢
    cases hx with
    | done h' => exact ih h'
    | overflow h' => exact .overflow h'
    | badIndex => exact .badIndex

/-- The final hash words see the first `block_len` bytes of the block only: padding writes over the others. -/
theorem finalHash_congr {e f : DigestState} (h : e.AgreeToBlockLen f) (hb : e.blockLen.toNat < 64) :
    finalHash e (e.block.put e.blockLen.toNat padMarker) = finalHash f (f.block.put f.blockLen.toNat padMarker) := by
  have hbytes : (List.range e.blockLen.toNat).map e.block.get = (List.range e.blockLen.toNat).map f.block.get :=
    List.map_congr_left fun a ha => h.block a (List.mem_range.1 ha)
  by_cases hone : e.blockLen.toNat ≤ 55
  · rw [finalHash_one hone, finalHash_one (h.blockLen ▸ hone), hbytes, h.h, h.blockLen, h.bitLen]
  · rw [finalHash_two (by omega) (by omega),
      finalHash_two (by rw [← h.blockLen]; omega) (by rw [← h.blockLen]; omega), hbytes, h.h, h.blockLen, h.bitLen]

theorem finishUpdate_alike {s t : State} (h : s.Alike DigestState.AgreeToBlockLen t) {a b : Absorbed}
    (hab : AbsorbedAlike a b) :
    OutcomesAlike DigestState.AgreeToBlockLen (finishUpdate s a) (finishUpdate t b) := by
  cases hab with
  | done he => exact .next ((h.withEngine he).respond .ok none)
  | overflow he => exact .next ((h.withEngine (he.corrupt .inputTooLong)).respond .inputTooLong none)
  | badIndex => exact .fault _

theorem finishFinalize_alike {s t : State} (h : s.Alike DigestState.AgreeToBlockLen t) :
    OutcomesAlike DigestState.AgreeToBlockLen
      (finishFinalize s (s.engine.block.store s.engine.blockLen.toNat padMarker))
      (finishFinalize t (t.engine.block.store t.engine.blockLen.toNat padMarker)) := by
  have hblockLen := h.engine.blockLen
  by_cases hb : s.engine.blockLen.toNat < 64
  · rw [Memory.store_of_lt _ _ hb, Memory.store_of_lt _ _ (hblockLen ▸ hb), finishFinalize, finishFinalize]
    rw [finalHash_congr h.engine hb]
    exact .next ((h.withEngine (h.engine.cleared _)).respond .ok _)
  · rw [Memory.store_eq_none.2 (by omega), Memory.store_eq_none.2 (by rw [← hblockLen]; omega)]
    exact .fault _

/-- The status check does not tell the two engines apart. -/
theorem checkStatus_alike {s t : State} (h : s.Alike DigestState.AgreeToBlockLen t)
    {work work' : Host.Outcome State Fault Refusal} (hwork : OutcomesAlike DigestState.AgreeToBlockLen work work') :
    OutcomesAlike DigestState.AgreeToBlockLen (checkStatus s work) (checkStatus t work') := by
  cases hs : s.engine.status with
  | active => rw [checkStatus_active hs, checkStatus_active (h.engine.status ▸ hs)]; exact hwork
  | finalized =>
    rw [checkStatus_finalized hs, checkStatus_finalized (h.engine.status ▸ hs)]
    exact .next ((h.withEngine (h.engine.corrupt .stateError)).respond .stateError none)
  | corrupted =>
    rw [checkStatus_corrupted hs, checkStatus_corrupted (h.engine.status ▸ hs), h.engine.cerr]
    exact .next (h.respond t.engine.cerr none)

theorem exec_agreeToBlockLen (i : Instr) (s t : State) (h : s.Alike DigestState.AgreeToBlockLen t) :
    OutcomesAlike DigestState.AgreeToBlockLen (exec i s) (exec i t) := by
  cases i with
  | init => exact exec_init_alike (.refl _) h
  | update data => exact checkStatus_alike h (finishUpdate_alike h (absorbAll_alike data h.engine))
  | finalize => exact checkStatus_alike h (finishFinalize_alike h)

/-- Settles O41: agreement up to `block_len` is kept by every instruction. -/
theorem staleBlockBytesInvisible : Obligations.StaleBlockBytesInvisible :=
  fun _ _ he hp hr n => observe_run_eq_of_alike (.refl _) exec_agreeToBlockLen ⟨he, hp, hr⟩ n

end Sys2Proof.Machine
end

section
/-! The engines of a platform (60_exceptions.md R150). -/

namespace Sys2Proof.Machine

/-- Settles O45: a step of the platform sets the place of its own engine in the vector. -/
theorem enginesAreIndependent : Obligations.EnginesAreIndependent := by
  refine ⟨engineCount_pos, fun k p q h => ?_⟩
  obtain ⟨s', hstep, rfl⟩ := Platform.step_next h
  refine ⟨?_, fun j hjk => ?_⟩
  · simpa using hstep
  · exact Vector.getElem_set_ne k.isLt j.isLt fun hkj => hjk (Fin.ext hkj.symm)

end Sys2Proof.Machine
end

section
/-! Payloads in parts, and the limit of the length (40_init_update.md R81 to R87). -/

namespace Sys2Proof.Machine

/-- A payload whose first part is absorbed whole and whose next byte overflows. -/
theorem absorbAll_append_overflow {xs : List Byte} {y : Byte} {zs : List Byte} {e e' : DigestState}
    (h : absorbAll xs e = .done e') (ho : 2 ^ 64 ≤ e'.bitLen.toNat + 8) :
    absorbAll (xs ++ y :: zs) e = .overflow e' := by
  rw [absorbAll_append h, absorbAll_cons_overflow (absorb_overflow ho)]

/-- Settles O25: `xs` is absorbed whole and leaves no room for `y`; what follows is the sticky error, and INIT. -/
theorem overflowInMidPayload : Obligations.OverflowInMidPayload := by
  intro s xs y zs hs hb hl
  obtain ⟨e, he⟩ := absorbAll_done_of_within_limit (data := xs) (Nat.lt_succ_of_le hb) (by omega)
  have hbitLen := absorbAll_done_bitLen he
  have hoverflow := absorbAll_append_overflow (y := y) (zs := zs) he (by omega)
  exact ⟨_, _, execUpdate_of_absorbAll_done hs he, rfl, execUpdate_of_absorbAll_overflow hs hoverflow, rfl, rfl, rfl,
    fun data => exec_of_corrupted rfl (by simp), exec_of_corrupted rfl (by simp), rfl⟩

/-- On an ACTIVE engine with whole bytes counted, one byte overflows exactly at the last count (R83). -/
theorem update_byte_corrupts_iff {s : State} (x : Byte) (hs : s.engine.status = .active)
    (hb : s.engine.blockLen.toNat ≤ 63) (h8 : s.engine.bitLen.toNat % 8 = 0) :
    ∃ t, exec (.update [x]) s = .next t ∧
      (t.engine.status = .corrupted ↔ s.engine.bitLen.toNat = 2 ^ 64 - 8) := by
  obtain ⟨hwithin, hover⟩ := absorbOneByte s x hs hb
  have hlt := s.engine.bitLen.isLt
  by_cases hl : s.engine.bitLen.toNat + 8 < 2 ^ 64
  · obtain ⟨t, ht, -, -, -, -, hactive, -⟩ := hwithin hl
    refine ⟨t, ht, ?_⟩
    rw [hactive]
    exact ⟨fun h => by simp at h, fun h => by omega⟩
  · exact ⟨_, hover (by omega), ⟨fun _ => by omega, fun _ => rfl⟩⟩

/-- After INIT the limit is reached by the message of `2 ^ 61 - 1` bytes (R83). -/
theorem update_after_init_response (s : State) (m : List Byte) :
    ∃ t u, exec .init s = .next t ∧ exec (.update m) t = .next u ∧
      u.responses = t.responses ++ [⟨if m.length ≤ 2 ^ 61 - 1 then .ok else .inputTooLong, none⟩] := by
  refine ⟨(s.withEngine DigestState.reset).respond .ok none, ?_⟩
  have hbitLen : DigestState.reset.bitLen.toNat = 0 := rfl
  by_cases hm : m.length ≤ 2 ^ 61 - 1
  · obtain ⟨e, he⟩ := absorbAll_done_of_within_limit (data := m) (e := DigestState.reset) (by decide) (by omega)
    refine ⟨_, exec_init s, execUpdate_of_absorbAll_done rfl he, ?_⟩
    rw [if_pos hm]
    rfl
  · obtain ⟨xs, ys, rfl, hxs⟩ : ∃ xs ys, m = xs ++ ys ∧ xs.length = 2 ^ 61 - 1 :=
      ⟨m.take (2 ^ 61 - 1), m.drop (2 ^ 61 - 1), (List.take_append_drop _ m).symm, by rw [List.length_take]; omega⟩
    obtain ⟨e, he⟩ := absorbAll_done_of_within_limit (data := xs) (e := DigestState.reset) (by decide) (by omega)
    have hfull := absorbAll_done_bitLen he
    cases ys with
    | nil => exact absurd hxs.le (by simpa using hm)
    | cons y zs =>
      refine ⟨_, exec_init s, execUpdate_of_absorbAll_overflow rfl (absorbAll_append_overflow he (by omega)), ?_⟩
      rw [if_neg hm]
      rfl

/-- `bit_len` never wraps (R83): however a payload ends, it is not smaller than before. -/
theorem execUpdate_bitLen_le {s t : State} {data : List Byte} (h : execUpdate data s = .next t) :
    s.engine.bitLen.toNat ≤ t.engine.bitLen.toNat := by
  have hbyte : ∀ x e e', s.engine.bitLen.toNat ≤ e.bitLen.toNat → absorb x e = .done e' →
      s.engine.bitLen.toNat ≤ e'.bitLen.toNat := by
    intro x e e' hle hx
    obtain ⟨-, -, -, -, hbitLen, -⟩ := absorb_done_fields hx
    omega
  obtain ⟨hdone, hoverflow⟩ := absorbAll_induction (data := data) hbyte (Nat.le_refl _)
  rcases execUpdate_next h with ⟨-, rfl⟩ | ⟨-, rfl⟩ | ⟨-, e, he, rfl⟩ | ⟨-, e, he, rfl⟩
  · exact Nat.le_refl _
  · exact Nat.le_refl _
  · exact hdone e he
  · exact hoverflow e he

/-- Settles O26: one byte at the limit, the largest message after INIT, and no wrap. -/
theorem overflowExactlyAtLimit : Obligations.OverflowExactlyAtLimit :=
  ⟨fun _ x hs hb h8 => update_byte_corrupts_iff x hs hb h8, update_after_init_response,
    fun _ _ _ h => execUpdate_bitLen_le h⟩

/-- A payload in two parts is absorbed whole exactly when the first part is, and then the second. -/
theorem absorbAll_append_eq_done {xs ys : List Byte} {e e' : DigestState} :
    absorbAll (xs ++ ys) e = .done e' ↔ ∃ e1, absorbAll xs e = .done e1 ∧ absorbAll ys e1 = .done e' := by
  induction xs generalizing e with
  | nil => simp
  | cons x xs ih =>
    simp only [List.cons_append, absorbAll_cons_eq_done, ih]
    exact ⟨fun ⟨e2, hx, e1, hxs, hys⟩ => ⟨e1, ⟨e2, hx, hxs⟩, hys⟩,
      fun ⟨e1, ⟨e2, hx, hxs⟩, hys⟩ => ⟨e2, hx, e1, hxs, hys⟩⟩

/-- Settles O27: the payload of both is absorbed whole, so its parts are, one after the other. -/
theorem chunkingInvariance : Obligations.ChunkingInvariance := by
  intro s m1 m2 hs hb hl
  obtain ⟨e2, he⟩ := absorbAll_done_of_within_limit (data := m1 ++ m2) (Nat.lt_succ_of_le hb)
    (by rw [List.length_append]; omega)
  obtain ⟨e1, he1, he2⟩ := absorbAll_append_eq_done.1 he
  have hs1 : e1.status = .active := (absorbAll_done_status_cerr he1).1.trans hs
  exact ⟨_, _, _, execUpdate_of_absorbAll_done hs he1,
    execUpdate_of_absorbAll_done (s := (s.withEngine e1).respond .ok none) hs1 he2,
    execUpdate_of_absorbAll_done hs he, rfl, by simp, rfl⟩

end Sys2Proof.Machine
end

section
/-! The complete blocks of a message, and its padding (40_init_update.md R88, 42_finalize.md R130, R131). -/

namespace Sys2Proof.Machine

/-- Less than a block behind complete blocks changes no hash word. -/
theorem hashCompleteBlocks_append_tail {blocks tail : List Byte} (hblocks : blocks.length % 64 = 0)
    (htail : tail.length < 64) : hashCompleteBlocks (blocks ++ tail) = hashCompleteBlocks blocks := by
  have hcount : (blocks ++ tail).length / 64 = blocks.length / 64 := by
    rw [List.length_append]
    omega
  rw [hashCompleteBlocks, hashCompleteBlocks, blockSize, hcount, firstBlocks_append (by omega)]

/-- One more block is one more compression. -/
theorem hashCompleteBlocks_append_block {blocks block : List Byte} (hblocks : blocks.length % 64 = 0)
    (hblock : block.length = 64) :
    hashCompleteBlocks (blocks ++ block) = compress (hashCompleteBlocks blocks) block := by
  have hcount : (blocks ++ block).length / 64 = blocks.length / 64 + 1 := by
    rw [List.length_append]
    omega
  have hdrop : (blocks ++ block).drop (64 * (blocks.length / 64)) = block := by
    rw [show 64 * (blocks.length / 64) = blocks.length by omega, List.drop_left]
  have hlast : firstBlocks 1 block = [block] := by
    rw [firstBlocks, firstBlocks, blockSize, List.take_of_length_le hblock.le]
  rw [hashCompleteBlocks, hashCompleteBlocks, blockSize, hcount, firstBlocks_add, firstBlocks_append (by omega), hdrop,
    hlast, List.foldl_append, List.foldl_cons, List.foldl_nil]

/-- Settles O44: the zero padding is the distance from the marker to the length field, modulo a block. -/
theorem paddedMessageFillsBlocks : Obligations.PaddedMessageFillsBlocks := by
  intro m
  have hlength : (paddedMessage m).length = m.length + 1 + zeroPadding m.length + 8 := by
    simp only [paddedMessage, List.length_append, List.length_singleton, List.length_replicate, beBytes64_length]
  rw [hlength]
  unfold zeroPadding
  exact ⟨by omega, by omega, fun z hz => by omega⟩

/-- One block is enough for the padding where the message leaves at most 55 bytes over (R123). -/
theorem paddedMessage_one_block {blocks tail : List Byte} (hblocks : blocks.length % 64 = 0) (htail : tail.length ≤ 55) :
    paddedMessage (blocks ++ tail) = blocks ++ (tail ++ [padMarker] ++ List.replicate (55 - tail.length) 0x00#8 ++
      beBytes64 (BitVec.ofNat 64 (8 * (blocks ++ tail).length))) := by
  have hzeros : zeroPadding (blocks ++ tail).length = 55 - tail.length := by
    rw [zeroPadding, List.length_append]
    omega
  rw [paddedMessage, hzeros]
  simp only [List.append_assoc]

/-- Otherwise the marker and zeros end the block, and another one holds the length (R124). -/
theorem paddedMessage_two_blocks {blocks tail : List Byte} (hblocks : blocks.length % 64 = 0)
    (hlo : 56 ≤ tail.length) (hhi : tail.length ≤ 63) :
    paddedMessage (blocks ++ tail) = blocks ++ (tail ++ [padMarker] ++ List.replicate (63 - tail.length) 0x00#8) ++
      (List.replicate 56 0x00#8 ++ beBytes64 (BitVec.ofNat 64 (8 * (blocks ++ tail).length))) := by
  have hzeros : zeroPadding (blocks ++ tail).length = 63 - tail.length + 56 := by
    rw [zeroPadding, List.length_append]
    omega
  rw [paddedMessage, hzeros, List.replicate_add]
  simp only [List.append_assoc]

end Sys2Proof.Machine
end

section
/-! The engine in terms of the message absorbed so far (40_init_update.md R88, 10_state.md R27). -/

namespace Sys2Proof.Machine

/-- The engine has absorbed a message since INIT: `blocks`, complete blocks that are hashed, and `tail`, the bytes that
stand in the block. -/
structure DigestState.HasAbsorbed (e : DigestState) (blocks tail : List Byte) : Prop where
  blocksWhole : blocks.length % 64 = 0
  tailLength  : tail.length = e.blockLen.toNat
  tailShort   : tail.length < 64
  bitLen      : e.bitLen.toNat = 8 * (blocks ++ tail).length
  inBlock     : (List.range tail.length).map e.block.get = tail
  hashed      : e.h = hashCompleteBlocks blocks

theorem DigestState.hasAbsorbed_reset : DigestState.reset.HasAbsorbed [] [] :=
  ⟨rfl, rfl, by simp, rfl, rfl, rfl⟩

/-- The bytes of the block up to one just written are the bytes before it and that byte. -/
theorem map_get_put_range_succ (m : Memory) (n : Nat) (v : Byte) :
    (List.range (n + 1)).map (m.put n v).get = (List.range n).map m.get ++ [v] := by
  simpa [Memory.putZeros, Memory.putBytes] using map_get_put_putZeros m v (Nat.le_refl n)

/-- One more byte joins the tail, and a tail that fills the block becomes one more hashed block. -/
theorem DigestState.HasAbsorbed.of_absorb_done {e e' : DigestState} {blocks tail : List Byte} {x : Byte}
    (h : e.HasAbsorbed blocks tail) (hx : absorb x e = .done e') :
    ∃ blocks' tail', blocks' ++ tail' = blocks ++ tail ++ [x] ∧ e'.HasAbsorbed blocks' tail' := by
  obtain ⟨hwhole, hlength, hshort, hbits, hbytes, hhashed⟩ := h
  obtain ⟨-, -, hblock, hblockLen, hbitLen, -, -, hh⟩ := absorb_done_fields hx
  have hnewBytes : (List.range (tail.length + 1)).map e'.block.get = tail ++ [x] := by
    rw [hblock, ← hlength, map_get_put_range_succ, hbytes]
  have hnewBits : e'.bitLen.toNat = 8 * (blocks ++ tail ++ [x]).length := by
    rw [hbitLen, hbits, List.length_append (bs := [x]), List.length_singleton]
    omega
  by_cases hfull : tail.length = 63
  · have hnewBlock : e'.block.bytes = tail ++ [x] := by
      rw [Memory.bytes, blockSize, ← hnewBytes, hfull]
    refine ⟨blocks ++ (tail ++ [x]), [], by simp, ?_, ?_, by simp, ?_, rfl, ?_⟩
    · simp only [List.length_append, List.length_singleton]
      omega
    · rw [hblockLen, ← hlength, hfull, List.length_nil]
    · rw [hnewBits, List.append_nil, List.append_assoc]
    · rw [hh, if_pos (hlength ▸ hfull), hashCompleteBlocks_append_block hwhole (by simp [hfull]), hhashed, ← hnewBlock,
        hblock, ← hlength, hfull]
  · have hnewLength : (tail ++ [x]).length = tail.length + 1 := by simp
    refine ⟨blocks, tail ++ [x], by simp, hwhole, by omega, by omega, ?_, ?_, ?_⟩
    · rw [hnewBits, List.append_assoc]
    · rw [hnewLength, hnewBytes]
    · rw [hh, if_neg (hlength ▸ hfull), hhashed]

theorem DigestState.HasAbsorbed.of_absorbAll_done {data : List Byte} {e e' : DigestState} {blocks tail : List Byte}
    (h : e.HasAbsorbed blocks tail) (hdata : absorbAll data e = .done e') :
    ∃ blocks' tail', blocks' ++ tail' = blocks ++ tail ++ data ∧ e'.HasAbsorbed blocks' tail' := by
  induction data generalizing e blocks tail with
  | nil => cases hdata; exact ⟨blocks, tail, by simp, h⟩
  | cons x xs ih =>
    obtain ⟨e1, hx, hxs⟩ := absorbAll_cons_eq_done.1 hdata
    obtain ⟨blocks1, tail1, heq1, h1⟩ := h.of_absorb_done hx
    obtain ⟨blocks2, tail2, heq2, h2⟩ := ih h1 hxs
    exact ⟨blocks2, tail2, by rw [heq2, heq1, List.append_assoc _ [x], List.singleton_append], h2⟩

section
variable {e : DigestState} {blocks tail : List Byte}

theorem DigestState.HasAbsorbed.length_mod (h : e.HasAbsorbed blocks tail) :
    (blocks ++ tail).length % 64 = tail.length := by
  have hwhole := h.blocksWhole
  have hshort := h.tailShort
  rw [List.length_append]
  omega

/-- The byte `i` of the block is the byte `i` of the message past its complete blocks. -/
theorem DigestState.HasAbsorbed.get_block (h : e.HasAbsorbed blocks tail) {i : Nat} (hi : i < tail.length) :
    e.block.get i = (blocks ++ tail).getD (64 * ((blocks ++ tail).length / 64) + i) 0 := by
  have hstart : 64 * ((blocks ++ tail).length / 64) = blocks.length := by
    have hwhole := h.blocksWhole
    have hshort := h.tailShort
    rw [List.length_append]
    omega
  have hbyte : e.block.get i = tail.getD i 0 := by
    conv_rhs => rw [← h.inBlock]
    rw [List.getD_eq_getElem _ _ (by simpa using hi)]
    simp
  rw [hstart, List.getD_append_right _ _ _ _ (Nat.le_add_right _ _), Nat.add_sub_cancel_left, hbyte]

theorem DigestState.HasAbsorbed.h_eq (h : e.HasAbsorbed blocks tail) : e.h = hashCompleteBlocks (blocks ++ tail) := by
  rw [h.hashed, hashCompleteBlocks_append_tail h.blocksWhole h.tailShort]

/-- FINALIZE pads the tail as the message is padded, so the hash words are those of the padded message (R131). -/
theorem DigestState.HasAbsorbed.finalHash_eq (h : e.HasAbsorbed blocks tail) :
    finalHash e (e.block.put e.blockLen.toNat padMarker) = hashCompleteBlocks (paddedMessage (blocks ++ tail)) := by
  obtain ⟨hwhole, hlength, hshort, hbits, hbytes, hhashed⟩ := h
  have hbitLen : e.bitLen = BitVec.ofNat 64 (8 * (blocks ++ tail).length) := by
    rw [← hbits, BitVec.ofNat_toNat, BitVec.setWidth_eq]
  by_cases hone : tail.length ≤ 55
  · rw [finalHash_one (by omega), ← hlength, hbytes, hhashed, hbitLen, paddedMessage_one_block hwhole hone,
      hashCompleteBlocks_append_block hwhole (by simp; omega), padMarker]
  · have hpadded : (blocks ++ (tail ++ [padMarker] ++ List.replicate (63 - tail.length) 0x00#8)).length % 64 = 0 := by
      simp only [List.length_append, List.length_singleton, List.length_replicate]
      omega
    rw [finalHash_two (by omega) (by omega), ← hlength, hbytes, hhashed, hbitLen,
      paddedMessage_two_blocks hwhole (by omega) (by omega), hashCompleteBlocks_append_block hpadded (by simp),
      hashCompleteBlocks_append_block hwhole (by simp; omega), padMarker]

end

/-! ### Runs of INIT, UPDATEs and FINALIZE -/

/-- A step runs the instruction that the host has issued. -/
theorem step_issued {s : State} {i : Instr} {rest : List HostEvent} (h : s.pending = issued i :: rest) :
    step s = exec i (s.withPending rest) :=
  step_command h (decode_encode i)

/-- UPDATEs in a row absorb their payloads in a row, if these together are absorbed whole, and all respond OK. -/
theorem run_updates {ms : List (List Byte)} {rest : List HostEvent} {s : State} {e : DigestState}
    (hs : s.engine.status = .active) (hp : s.pending = ms.map (fun m => issued (.update m)) ++ rest)
    (he : absorbAll ms.flatten s.engine = .done e) :
    run ms.length s = .next
      { engine := e, pending := rest, responses := s.responses ++ List.replicate ms.length ⟨.ok, none⟩ } := by
  induction ms generalizing s with
  | nil =>
    cases he
    cases hp
    simp
  | cons m ms ih =>
    rw [List.flatten_cons] at he
    obtain ⟨e1, hm, hms⟩ := absorbAll_append_eq_done.1 he
    have hs1 : e1.status = .active := (absorbAll_done_status_cerr hm).1.trans hs
    have hstep := (step_issued hp).trans (execUpdate_of_absorbAll_done hs hm)
    rw [List.length_cons, run_succ_next hstep, ih hs1 rfl hms]
    simp [List.replicate_succ]

/-- INIT and UPDATEs inside the limit absorb the whole message, from any state. -/
theorem run_init_updates {ms : List (List Byte)} {rest : List HostEvent} {s : State}
    (hl : 8 * ms.flatten.length < 2 ^ 64)
    (hp : s.pending = issued .init :: (ms.map (fun m => issued (.update m)) ++ rest)) :
    ∃ e, absorbAll ms.flatten DigestState.reset = .done e ∧
      run (ms.length + 1) s = .next
        { engine := e, pending := rest, responses := s.responses ++ List.replicate (ms.length + 1) ⟨.ok, none⟩ } := by
  have hbitLen : DigestState.reset.bitLen.toNat = 0 := rfl
  obtain ⟨e, he⟩ := absorbAll_done_of_within_limit (data := ms.flatten) (e := DigestState.reset) (by decide) (by omega)
  refine ⟨e, he, ?_⟩
  rw [run_succ_next ((step_issued hp).trans (exec_init _)), run_updates rfl rfl he]
  simp [List.replicate_succ]

/-- Settles O28: the engine of `run_init_updates` is ACTIVE and has absorbed the message. -/
theorem accumulatedMessageState : Obligations.AccumulatedMessageState := by
  intro s ms hl hp
  obtain ⟨e, he, hrun⟩ := run_init_updates (rest := []) hl (by rw [hp, List.append_nil])
  obtain ⟨hstatus, hcerr⟩ := absorbAll_done_status_cerr he
  obtain ⟨blocks, tail, hm, h⟩ := DigestState.hasAbsorbed_reset.of_absorbAll_done he
  rw [List.append_nil, List.nil_append] at hm
  refine ⟨_, hrun, ?_, ?_, ?_, ?_, hstatus, hcerr, rfl, rfl⟩ <;> rw [← hm]
  · exact h.bitLen
  · exact h.length_mod ▸ h.tailLength.symm
  · rw [h.length_mod]
    exact fun i hi => h.get_block hi
  · exact h.h_eq

/-- FINALIZE responds the digest of the message absorbed (R131). -/
theorem exec_finalize_of_hasAbsorbed {s : State} {blocks tail : List Byte} (hs : s.engine.status = .active)
    (h : s.engine.HasAbsorbed blocks tail) :
    ∃ t, exec .finalize s = .next t ∧ t.pending = s.pending ∧
      t.responses = s.responses ++ [⟨.ok, some (sha1 (blocks ++ tail))⟩] := by
  obtain ⟨hw, hfinal, hexec⟩ := execFinalize_active hs (h.tailLength ▸ h.tailShort)
  refine ⟨_, hexec, rfl, ?_⟩
  rw [State.respond_responses, hfinal, h.finalHash_eq, sha1, State.withEngine_responses]

/-- Settles O43: the engine of `run_init_updates` is ACTIVE and has absorbed the message, of which FINALIZE responds the
digest. -/
theorem hashOfAnySplit : Obligations.HashOfAnySplit := by
  intro s ms hl hp
  obtain ⟨e, he, hrun⟩ := run_init_updates (by omega) hp
  have hs : e.status = .active := (absorbAll_done_status_cerr he).1
  obtain ⟨blocks, tail, hm, h⟩ := DigestState.hasAbsorbed_reset.of_absorbAll_done he
  rw [List.append_nil, List.nil_append] at hm
  obtain ⟨t, hexec, hpending, hresponses⟩ := exec_finalize_of_hasAbsorbed
    (s := { engine := e, pending := [], responses := s.responses ++ List.replicate (ms.length + 1) ⟨.ok, none⟩ }) hs h
  rw [hm] at hresponses
  exact ⟨t, (run_add hrun).trans ((run_one _).trans ((step_issued rfl).trans hexec)), hpending, hresponses⟩

/-- Settles O42: one UPDATE is a split in one part. -/
theorem hashOfWholeMessage : Obligations.HashOfWholeMessage := by
  intro s m hl hp
  obtain ⟨t, hrun, hpending, hresponses⟩ := hashOfAnySplit s [m] (by simpa using hl) hp
  refine ⟨t, hrun, hpending, ?_⟩
  rw [hresponses, List.flatten_singleton]
  simp [List.replicate]

end Sys2Proof.Machine
end
